-- ==== Sys2Proof/Word.lean ====
section
/-! DEFINITION. The word types of the SHA-1 core (spec/00_scope.md R6, R8). -/

namespace Sys2Proof

/-- An unsigned 32-bit word: `WORD` and `REGW` (R6, R7). -/
abbrev Word := BitVec 32

/-- A byte. -/
abbrev Byte := BitVec 8

end Sys2Proof
end

