-- ==== Sys2Proof/Machine/Types.lean ====
section
/-! DEFINITION. The named alternatives the state is made of: phases, error codes, the sequencer's scratch,
the operand registers and the accesses of the host. -/

namespace Sys2Proof.Machine

/-- `PHASE` (10_state.md R31, 30_encoding.md R99). -/
inductive Phase where
  | idle | check | feed | loadw | round | addback | pad | out
deriving DecidableEq, Repr, Inhabited

/-- `ERR` (10_state.md R34). -/
inductive ErrCode where
  | ok | nullInput | invalidArgument | illegalCommand
deriving DecidableEq, Repr, Inhabited

/-- The four operand registers (10_state.md R36), also the sampled copy of them (R44, R242). -/
structure Operands where
  offset : Word
  length : Word
  bufsize : Word
  bufbase : Word
deriving DecidableEq, Repr, Inhabited

/-- The padding step counter (42_buffering_padding.md R183, R187): which padding byte is next. -/
inductive PadStep where
  /-- The byte `0x80`, step 1 of R183. -/
  | start
  /-- A zero byte while `PL != 56`, step 2; then the first length byte. -/
  | zeros
  /-- Length byte `k`, step 3. -/
  | length (k : Fin 8)
  /-- No padding byte remains. -/
  | done
deriving DecidableEq, Repr, Inhabited

/-- The phase to resume after `ADDBACK` (R44): the one that filled the block. -/
inductive Resume where
  | feed | pad
deriving DecidableEq, Repr, Inhabited

/-- The sequencer scratch of 10_state.md R44. -/
structure Scratch where
  /-- The sampled command word. -/
  cmd : Word
  /-- The sampled operands. -/
  opr : Operands
  /-- Index of the next input byte of `UPDATE`. -/
  i : BitVec 31
  /-- The next padding byte, with `k`. -/
  pad : PadStep
  /-- Index of the next digest byte of `FINISHTO`: the loop of one `OUT` step runs over all of it. -/
  j : Fin 20
  /-- The phase `ADDBACK` hands back to. -/
  resume : Resume
deriving DecidableEq, Repr, Inhabited

/-- A register access of the host (10_state.md R39, R40): a byte offset in the block and a width in bytes. -/
structure RegAccess where
  off : Nat
  width : Nat
deriving DecidableEq, Repr, Inhabited

/-- What the host (or the reset line) does next. -/
inductive HostAction where
  /-- Writes the command word `w` to `CMD` and sees the command complete: the atomic view of R11, R120. -/
  | issue (w : Word)
  /-- A register write (R39, R40); at `CMD` it starts the sequencer (R187). -/
  | write (a : RegAccess) (v : Word)
  /-- A register read (R39, R40). -/
  | read (a : RegAccess)
  /-- The host reads a byte of its own memory. -/
  | load (addr : Word)
  /-- The host writes a byte of its own memory. -/
  | store (addr : Word) (b : Byte)
  /-- The host does nothing while the core makes one step. -/
  | tick
  /-- The host waits until `BUSY` is 0 (R100: "waits for `BUSY = 0`"). -/
  | await
  /-- The hardware reset event (70_reset_and_hazards.md R230). -/
  | hardReset
deriving DecidableEq, Repr, Inhabited

end Sys2Proof.Machine
end

