-- ==== Sys2Proof/Config.lean ====
section
/-! DEFINITION. The constants of the core (00_scope.md R6, R7) and the free values: what the spec leaves
unspecified, as constants with no body, each applied to the number of the draw. -/

namespace Sys2Proof.Config

open Sys2Proof.Machine

/-- `DIGEST_LEN` (R6). -/
def digestLen : Nat := 20

/-- `BLOCK_LEN` (R6). -/
def blockLen : Nat := 64

/-- `NROUNDS` (R6). -/
def nRounds : Nat := 80

/-- The parameter `nullZeroNegOffset` of R7 at the value the spec takes: the status of `UPDATE` with an
absent buffer, length 0 and a negative offset (60_exceptions.md R206, decision D10). -/
def nullZeroNegOffset : ErrCode := .invalidArgument

/-- The sequencer scratch between commands (10_state.md R42, R44: unspecified). -/
opaque freeScratch : Nat → Scratch

/-- `PB` after the hardware reset event (R42, 93 U3: any value). -/
opaque freePendingBuffer : Nat → Vector Byte 64

/-- `V` after the hardware reset event (R42, U3). -/
opaque freeWorking : Nat → Vector Word 5

/-- `W` after the hardware reset event (R42, U3). -/
opaque freeSchedule : Nat → Vector Word 80

/-- `DOUT` after the hardware reset event (R42, U3). -/
opaque freeDigest : Nat → Vector Word 5

/-- The word a read of `DOUT` returns while `FIN = 0` (10_state.md R33, U4). -/
opaque freeRead : Nat → Word

/-- Byte `j` of the output range when the hardware reset event strikes a `FINISHTO`
(70_reset_and_hazards.md R230, U12: any value). -/
opaque freeByte : Nat → Nat → Byte

end Sys2Proof.Config
end

