-- ==== Sys2Proof/Machine/Constants.lean ====
section
/-! DEFINITION. The constants of SHA-1 as the spec supplies them (93_implementation_defined.md G1, G2;
assumption 16), and what unwritten memory reads as. -/

namespace Sys2Proof.Machine

/-- `IV[0..4]`, the fixed initial constants (00_scope.md R7, 10_state.md R42). -/
abbrev ivWords : Vector Word 5 := #v[0x67452301#32, 0xEFCDAB89#32, 0x98BADCFE#32, 0x10325476#32, 0xC3D2E1F0#32]

/-- `K[0]`, the constant of stage 0 (41_compression.md R156). -/
abbrev k0 : Word := 0x5A827999#32

/-- `K[1]` (R156). -/
abbrev k1 : Word := 0x6ED9EBA1#32

/-- `K[2]` (R156). -/
abbrev k2 : Word := 0x8F1BBCDC#32

/-- `K[3]` (R156). -/
abbrev k3 : Word := 0xCA62C1D6#32

/-- What a byte of memory that nothing has written reads as. DESIGN CHOICE (assumption 5, unsafe). -/
abbrev unlistedByte : Byte := 0#8

end Sys2Proof.Machine
end

