-- ==== Sys2Proof/Machine/State.lean ====
section
/-! DEFINITION. The state of the core (spec/10_state.md R20), its reset value (R42), and the reasons a
step can stop. -/

namespace Sys2Proof.Machine

/-- The host's byte space (20_memory.md R60, R61): pairs of address and byte, addresses strictly rising,
no pair equal to what an unlisted address reads as. -/
abbrev Memory := List Host.Cell

/-- The compression datapath: `V` = `A B C D E` (R27), `W` (R28) and `T` (R30). -/
structure Datapath where
  v : Vector Word 5
  w : Vector Word 80
  t : BitVec 7
deriving DecidableEq, Repr

/-- The whole machine. The first three groups are the table of 10_state.md R20. -/
structure State where
  /-- `H[0..4]` (R21). -/
  h : Vector Word 5
  /-- `PB[0..63]` (R22). -/
  pb : Vector Byte 64
  /-- `PL` (R23), 6 bits. -/
  pl : Fin 64
  /-- `TB` (R24). -/
  tb : BitVec 64
  /-- `FIN` (R25). -/
  fin : Bool
  /-- `V`, `W`, `T` (R27, R28, R30). -/
  dp : Datapath
  /-- `PHASE` (R31). -/
  phase : Phase
  /-- The sequencer scratch (R44). -/
  scratch : Scratch
  /-- `BUSY` (R32). -/
  busy : Bool
  /-- `DOUT[0..4]` (R33). -/
  dout : Vector Word 5
  /-- `ERR` (R34). -/
  err : ErrCode
  /-- `RESULT` (R35). -/
  result : Word
  /-- `OFFSET`, `LENGTH`, `BUFSIZE`, `BUFBASE` (R36). -/
  opr : Operands
  /-- The host's memory (20_memory.md R60; an input of the step by R14). -/
  mem : Memory
  /-- The model's own: what the host does next (assumption 6). -/
  host : List HostAction
  /-- The model's own: the word the host's last register read returned (assumption 7). -/
  rdata : Word
  /-- The model's own: the byte the host's last memory read returned (assumption 7). -/
  rbyte : Byte
  /-- The model's own: how many free values have been drawn (assumption 2). -/
  draws : Nat
deriving DecidableEq, Repr

/-- Why the core is stuck. None of these is an error of the spec (those are values of `ERR`); each names an
internal state in which the spec gives no step. -/
inductive Fault where
  /-- Raised by the sequencer and by `SCHED` and the rounds with `T >= 80` in `PHASE = ROUND`, which R99
  says is never reached. Safe: the model stops. -/
  | unreachedSequencerWord
  /-- Raised by `ABSORB` where `MemRead` is not defined: no buffer, or an index outside it (R62). Safe. -/
  | noInputByte
  /-- Raised by `PAD` when no padding byte remains (R183, R187). Safe. -/
  | noPaddingByte
deriving DecidableEq, Repr

/-- Why the model gives a run no meaning: each is a breach of the contract by the host. -/
inductive Refusal where
  /-- An instruction with no meaning yet, by its mnemonic. -/
  | notModelled (mnemonic : String)
  /-- Raised by a host access while `BUSY = 1` other than reading `STATUS` (R240, U1, U11). Safe. -/
  | accessWhileBusy
  /-- Raised by a host access to the bytes the running command uses (R241, U2). Safe. -/
  | bufferTouchedDuringCommand
  /-- Raised by a register access that is not an aligned 32-bit access in the block (R40, U7). Safe. -/
  | badRegisterAccess
  /-- Raised by `UPDATE` and `FINISHTO` with a present buffer, and by the `CMD` write that issues one, when
  `BUFBASE + BUFSIZE > 2^32` (20_memory.md R61, U8). Safe. -/
  | bufferWraps
deriving DecidableEq, Repr

/-- What one step of this machine answers. -/
abbrev Result := Host.Outcome State Fault Refusal

/-- The state right after hardware reset: the column "hardware reset" of R42. `pb`, `dp.v`, `dp.w`,
`scratch` and `dout` are unspecified there and named here: DESIGN CHOICE (assumption 1, unsafe). -/
def State.reset : State where
  h := ivWords
  pb := Vector.replicate 64 0#8
  pl := 0
  tb := 0#64
  fin := false
  dp := { v := Vector.replicate 5 0#32, w := Vector.replicate 80 0#32, t := 0#7 }
  phase := .idle
  scratch := { cmd := 0#32, opr := ⟨0#32, 0#32, 0#32, 0#32⟩, i := 0#31, pad := .start, j := 0, resume := .feed }
  busy := false
  dout := Vector.replicate 5 0#32
  err := .ok
  result := 0#32
  opr := ⟨0#32, 0#32, 0#32, 0#32⟩
  mem := []
  host := []
  rdata := 0#32
  rbyte := 0#8
  draws := 0

end Sys2Proof.Machine
end

