-- ==== Sys2Proof/Machine/Flags.lean ====
section
/-! DEFINITION. The flags `BUSY`, `FIN` and `ERR` and the register that shows them (10_state.md R25, R32,
R34, R38). -/

namespace Sys2Proof.Machine

/-- The codes of `ERR` (R34). -/
def ErrCode.code : ErrCode → BitVec 2
  | .ok => 0#2
  | .nullInput => 1#2
  | .invalidArgument => 2#2
  | .illegalCommand => 3#2

/-- `STATUS`: bit 0 `BUSY`, bit 1 `FIN`, bits 3:2 `ERR`, the rest 0 (R38). -/
def statusWord (busy fin : Bool) (err : ErrCode) : Word :=
  0#28 ++ (err.code ++ (BitVec.ofBool fin ++ BitVec.ofBool busy))

/-- The codes of `PHASE` (30_encoding.md R99). -/
def Phase.code : Phase → BitVec 3
  | .idle => 0#3
  | .check => 1#3
  | .feed => 2#3
  | .loadw => 3#3
  | .round => 4#3
  | .addback => 5#3
  | .pad => 6#3
  | .out => 7#3

/-- The phase of a code (R99). -/
def Phase.ofCode (c : BitVec 3) : Phase :=
  match c.toNat with
  | 0 => .idle
  | 1 => .check
  | 2 => .feed
  | 3 => .loadw
  | 4 => .round
  | 5 => .addback
  | 6 => .pad
  | _ => .out

end Sys2Proof.Machine
end

