-- ==== Sys2Proof/Syntax.lean ====
section
/-! DEFINITION. The instructions: one constructor per row of spec/opcode_table.json. -/

namespace Sys2Proof

/-- The rows of the opcode table: six commands and the illegal command word (format CMD,
30_encoding.md R91, R93, R96), then the micro-operations of the sequencer (format SEQ, R98, R99).
An operand is a field of the word that decoding does not ignore; the numeric operands of a command
are in the operand registers (R91). -/
inductive Instr where
  /-- `GETDLEN`, R121. -/
  | getdlen
  /-- `GETBLEN`, R122. -/
  | getblen
  /-- `RESET`, R123. -/
  | reset
  /-- `UPDATE`, R124; `p` is the buffer-present bit (R92). -/
  | update (p : Bool)
  /-- `FINISH`, R125. -/
  | finish
  /-- `FINISHTO`, R127; `p` is the buffer-present bit (R92). -/
  | finishto (p : Bool)
  /-- A command word that encodes no command, R96; `word` is the word written. -/
  | illegal (word : Word)
  /-- `ABSORB` of the next input byte, R182. -/
  | absorb
  /-- `LOADW`, R157. -/
  | loadw
  /-- `ROUND1`, R159; `t` is the word's `T` field, 0..19. -/
  | round1 (t : BitVec 7)
  /-- `ROUND2`, R160; `t` is the word's `T` field, 20..39. -/
  | round2 (t : BitVec 7)
  /-- `ROUND3`, R161; `t` is the word's `T` field, 40..59. -/
  | round3 (t : BitVec 7)
  /-- `ROUND4`, R162; `t` is the word's `T` field, 60..79. -/
  | round4 (t : BitVec 7)
  /-- `SCHED`, R158; `t` is the word's `T` field, 16..79. -/
  | sched (t : BitVec 7)
  /-- `ADDBACK`, R163. -/
  | addback
  /-- One step of `PAD`: the next padding byte, R183. -/
  | pad
  /-- `SERIALISE`, R185. -/
  | serialise
  /-- `REINIT`, R186. -/
  | reinit
  /-- `PUTBYTE(b)`, R181: no selector of its own, `b` is its operand. -/
  | putbyte (b : Byte)
deriving DecidableEq, Repr

end Sys2Proof
end

