-- ==== Sys2Proof/WellFormed.lean ====
section
/-! DEFINITION. Which terms of `Instr` an encoding of the spec can mean: the reserved command words of
30_encoding.md R96 and the ranges of `T` in R99. -/

namespace Sys2Proof

/-- R96: a command word is illegal when any of bits 31:4 is set or `OP` is 110 or 111. -/
def isIllegalWord (w : Word) : Bool :=
  w.extractLsb' 4 28 != 0#28 || 6 ≤ (w.extractLsb' 0 3).toNat

/-- R96, R99: `illegal` holds an illegal word; a round's `T` lies in its stage; `SCHED` runs for 16..79. -/
def Instr.wellFormed : Instr → Bool
  | .getdlen => true
  | .getblen => true
  | .reset => true
  | .update _ => true
  | .finish => true
  | .finishto _ => true
  | .illegal w => isIllegalWord w
  | .absorb => true
  | .loadw => true
  | .round1 t => decide (t.toNat < 20)
  | .round2 t => decide (20 ≤ t.toNat ∧ t.toNat < 40)
  | .round3 t => decide (40 ≤ t.toNat ∧ t.toNat < 60)
  | .round4 t => decide (60 ≤ t.toNat ∧ t.toNat < 80)
  | .sched t => decide (16 ≤ t.toNat ∧ t.toNat < 80)
  | .addback => true
  | .pad => true
  | .serialise => true
  | .reinit => true
  | .putbyte _ => true

end Sys2Proof
end

