-- ==== Sys2Proof/Decode.lean ====
section
/-! DEFINITION. Decoding and encoding of command words and sequencer words (spec/30_encoding.md). -/

namespace Sys2Proof

/-- R90: the two formats. A command word is written by the host; a sequencer word is
`PHASE[2:0] || T[6:0]` inside the core (R98). -/
inductive Code where
  | cmd (w : Word)
  | seq (w : BitVec 10)
deriving DecidableEq, Repr

/-- Why a sequencer word selects no micro-operation of the table (R99). -/
inductive Reject where
  /-- `PHASE = IDLE`: none, the core waits for a `CMD` write. -/
  | idle
  /-- `PHASE = CHECK`: decode and argument checks of the issued command. -/
  | check
  /-- `PHASE = ROUND` with `T >= 80`: never reached. -/
  | unreached
deriving DecidableEq, Repr

/-! ### Fields -/

/-- `OP`, bits 2:0 of a command word (R91). -/
def opField (w : Word) : BitVec 3 := w.extractLsb' 0 3

/-- `P`, bit 3 of a command word (R91, R92). -/
def pField (w : Word) : Bool := w.getLsbD 3

/-- `RSV`, bits 31:4 of a command word (R91). -/
def rsvField (w : Word) : BitVec 28 := w.extractLsb' 4 28

/-- `PHASE`, bits 9:7 of a sequencer word (R98). -/
def phaseField (w : BitVec 10) : BitVec 3 := w.extractLsb' 7 3

/-- `T`, bits 6:0 of a sequencer word (R98). -/
def tField (w : BitVec 10) : BitVec 7 := w.extractLsb' 0 7

/-! ### Decoding -/

/-- R93, R96: the opcode map; every word outside it is illegal. -/
def decodeCmd (w : Word) : Instr :=
  if rsvField w ≠ 0#28 then .illegal w
  else match (opField w).toNat with
    | 0 => .getdlen
    | 1 => .getblen
    | 2 => .reset
    | 3 => .update (pField w)
    | 4 => .finish
    | 5 => .finishto (pField w)
    | _ => .illegal w

/-- R99, the `ROUND` rows: the round of the stage of `T`, after `SCHED` when `T >= 16`. -/
def roundOps (t : BitVec 7) : Except Reject (List Instr) :=
  if t.toNat < 16 then .ok [.round1 t]
  else if t.toNat < 20 then .ok [.sched t, .round1 t]
  else if t.toNat < 40 then .ok [.sched t, .round2 t]
  else if t.toNat < 60 then .ok [.sched t, .round3 t]
  else if t.toNat < 80 then .ok [.sched t, .round4 t]
  else .error .unreached

/-- R99: the micro-operations the sequencer word selects, in the order they run in the step.
(`ADDBACK` does not read `T`: assumption 11.) -/
def decodeSeq (w : BitVec 10) : Except Reject (List Instr) :=
  match (phaseField w).toNat with
  | 0 => .error .idle
  | 1 => .error .check
  | 2 => .ok [.absorb]
  | 3 => .ok [.loadw]
  | 4 => roundOps (tField w)
  | 5 => .ok [.addback]
  | 6 => .ok [.pad]
  | _ => .ok [.serialise, .reinit]

/-- Every word of either format, decoded to the operations it selects or rejected by name. -/
def decode : Code → Except Reject (List Instr)
  | .cmd w => .ok [decodeCmd w]
  | .seq w => decodeSeq w

/-- The operation a step is named after in R99: a `ROUND` rather than the `SCHED` before it,
`SERIALISE` rather than the `REINIT` after it (assumption 12). -/
def mainOp : List Instr → Option Instr
  | [] => none
  | [i] => some i
  | .sched _ :: i :: _ => some i
  | i :: _ => some i

/-! ### Encoding -/

/-- R91: a command word from its fields `OP` and `P`, with `RSV` = 0. -/
def cmdWord (op : BitVec 3) (p : Bool) : Word := 0#28 ++ (BitVec.ofBool p ++ op)

/-- R98: a sequencer word from `PHASE` and `T`. -/
def seqWord (phase : BitVec 3) (t : BitVec 7) : BitVec 10 := phase ++ t

/-- R91, R93, R98, R99: the word of an instruction. A bit the row ignores is written 0; the word of
`PUTBYTE` is the selector of `ABSORB`, whose body it is (R181). -/
def encode : Instr → Code
  | .getdlen => .cmd (cmdWord 0 false)
  | .getblen => .cmd (cmdWord 1 false)
  | .reset => .cmd (cmdWord 2 false)
  | .update p => .cmd (cmdWord 3 p)
  | .finish => .cmd (cmdWord 4 false)
  | .finishto p => .cmd (cmdWord 5 p)
  | .illegal w => .cmd w
  | .absorb => .seq (seqWord 2 0)
  | .loadw => .seq (seqWord 3 0)
  | .round1 t => .seq (seqWord 4 t)
  | .round2 t => .seq (seqWord 4 t)
  | .round3 t => .seq (seqWord 4 t)
  | .round4 t => .seq (seqWord 4 t)
  | .sched t => .seq (seqWord 4 t)
  | .addback => .seq (seqWord 5 80)
  | .pad => .seq (seqWord 6 0)
  | .serialise => .seq (seqWord 7 0)
  | .reinit => .seq (seqWord 7 0)
  | .putbyte _ => .seq (seqWord 2 0)

/-- A word of the opcode table as a code: 32 bits are a command word, fewer a sequencer word, whose
bits above bit 9 must be 0. -/
def tableCode (nbits w : Nat) : Option Code :=
  if nbits = 32 then some (.cmd (BitVec.ofNat 32 w))
  else if nbits ≤ 16 ∧ w < 1024 then some (.seq (BitVec.ofNat 10 w))
  else none

/-- The instruction the decoder reads from a word of the opcode table; where the word selects two
micro-operations, the one the step is named after (assumption 12). -/
def decodeTableWord (nbits w : Nat) : Option Instr :=
  match tableCode nbits w with
  | none => none
  | some c => match decode c with
    | .ok ops => mainOp ops
    | .error _ => none

end Sys2Proof
end

