-- ==== Sys2Proof/Machine/Operands.lean ====
section
/-! DEFINITION. How the operands of a command are assembled and checked (30_encoding.md R94, R95;
40_commands.md R124, R127; 60_exceptions.md R205), and where the caller's bytes lie (20_memory.md R61). -/

namespace Sys2Proof.Machine

/-- `off = sint32(OFFSET)` (R95). -/
def Operands.off (o : Operands) : Int := o.offset.toInt

/-- `len = sint32(LENGTH)` (R95). -/
def Operands.len (o : Operands) : Int := o.length.toInt

/-- `size = BUFSIZE`, unsigned (R95). -/
def Operands.size (o : Operands) : Int := o.bufsize.toNat

/-- The launch premise `BUFBASE + BUFSIZE <= 2^32` (20_memory.md R61). -/
def Operands.fits (o : Operands) : Bool := decide (o.bufbase.toNat + o.bufsize.toNat ≤ 2 ^ 32)

/-- Whether a command with this `P` may be launched (R61, 70_reset_and_hazards.md R245 L3): the premise binds
every command with a present buffer, moving a byte or not (assumption 8). -/
def Operands.launches (p : Bool) (o : Operands) : Bool := !p || o.fits

/-- The host address of index `idx` of the caller buffer, `BUFBASE + idx` (R61), a 32-bit address. -/
def Operands.addr (o : Operands) (idx : Nat) : Nat := (o.bufbase.toNat + idx) % 2 ^ 32

/-- What the checks of a command decide before its first write. -/
inductive Verdict where
  /-- The command raises this code. -/
  | raise (e : ErrCode)
  /-- The command succeeds and moves no byte. -/
  | nothing
  /-- The checks pass and bytes are to be moved. -/
  | run
  /-- The launch premise is broken (R61, U8): the command has no meaning. -/
  | wraps
deriving DecidableEq, Repr

/-- Steps 1 to 4 of `UPDATE` (R124), in the order of R205, under the launch premise (R61). -/
def updateCheck (p : Bool) (o : Operands) : Verdict :=
  if o.launches p = false then .wraps
  else if o.off < 0 ∨ o.len < 0 then
    .raise (if p = false ∧ o.len = 0 then Config.nullZeroNegOffset else .invalidArgument)
  else if p = false then
    if 0 < o.len then .raise .nullInput else .nothing
  else if o.size < o.off + o.len then .raise .invalidArgument
  else if o.len = 0 then .nothing
  else .run

/-- Steps 1 to 3 of `FINISHTO` (R127), in the order of R205, under the launch premise (R61). -/
def finishtoCheck (p : Bool) (o : Operands) : Verdict :=
  if o.launches p = false then .wraps
  else if o.off < 0 then .raise .invalidArgument
  else if p = false then .raise .nullInput
  else if o.size < o.off + Config.digestLen then .raise .invalidArgument
  else .run

/-- Whether `MemRead` and `MemWrite` are defined at index `idx`: `P = 1` and `0 <= idx < size` (R62, R63). -/
def bufferIndexDefined (p : Bool) (o : Operands) (idx : Int) : Bool :=
  p && decide (0 ≤ idx ∧ idx < o.size)

/-- Whether address `a` is one of the `n` bytes from index `off` (R241), whether or not these lie in the
buffer: DESIGN CHOICE for a command that will fail its checks (assumption 18, safe). -/
def inBufferRange (o : Operands) (n : Int) (a : Nat) : Bool :=
  decide (o.bufbase.toNat + o.off ≤ (a : Int) ∧ (a : Int) < o.bufbase.toNat + o.off + n)

end Sys2Proof.Machine
end

