-- ==== Sys2Proof/Machine/Ops.lean ====
section
/-! DEFINITION. The shared operations: byte memory (20_memory.md), bytes and words, the end of a command
and `raise` (60_exceptions.md R204), and the register block (10_state.md R39, R40). -/

namespace Sys2Proof.Machine

/-! ### Outcomes -/

/-- Goes on with `f` after a next state; a fault or a refusal ends the step. -/
def andThen (r : Result) (f : State → Result) : Result :=
  match r with
  | .next s => f s
  | .fault e => .fault e
  | .refused e => .refused e

/-! ### Memory -/

/-- The byte at an address of the host's byte space. -/
def Memory.read : Memory → Nat → Byte
  | [], _ => unlistedByte
  | (k, v) :: rest, a => if k = a then v else Memory.read rest a

/-- Puts a pair in front, unless it says what an unlisted address says. -/
def Memory.put (a : Nat) (b : Byte) (rest : Memory) : Memory :=
  if b = unlistedByte then rest else (a, b) :: rest

/-- Stores one byte, keeping the canonical form. -/
def Memory.write : Memory → Nat → Byte → Memory
  | [], a, b => Memory.put a b []
  | (k, v) :: rest, a, b =>
    if a < k then Memory.put a b ((k, v) :: rest)
    else if a = k then Memory.put a b rest
    else (k, v) :: Memory.write rest a b

/-- The canonical form from address `lo` on: addresses strictly rising, inside the 32-bit space, and no
pair equal to what an unlisted address reads as. -/
def Memory.wfFrom : Nat → Memory → Bool
  | _, [] => true
  | lo, (k, v) :: rest =>
    decide (lo ≤ k) && decide (k < 2 ^ 32) && decide (v ≠ unlistedByte) && Memory.wfFrom (k + 1) rest

/-- The canonical form. -/
def Memory.wf (m : Memory) : Bool := Memory.wfFrom 0 m

/-- `MemRead(buf, idx, 1)` for the buffer the operands describe (20_memory.md R62). -/
def memRead (o : Operands) (m : Memory) (idx : Nat) : Byte := m.read (o.addr idx)

/-- `MemWrite(buf, idx, 1, v)` (20_memory.md R63). -/
def memWrite (o : Operands) (m : Memory) (idx : Nat) (b : Byte) : Memory := m.write (o.addr idx) b

/-- The bytes an `UPDATE` that runs feeds: indices `off .. off+len-1`, ascending (R70). -/
def inputBytes (o : Operands) (m : Memory) : List Byte :=
  (List.range o.len.toNat).map fun i => memRead o m (o.off.toNat + i)

/-! ### Bytes and words -/

/-- `be32(b0, b1, b2, b3)` (00_scope.md R9). -/
def be32 (b0 b1 b2 b3 : Byte) : Word := b0 ++ (b1 ++ (b2 ++ b3))

/-- `byte_k(w) = w[31-8k : 24-8k]` (R9). -/
def byteOf (w : Word) (k : Nat) : Byte := w.extractLsb' (24 - 8 * k) 8

/-- Byte `k` of the length field, `TB[63-8k : 56-8k]` (42_buffering_padding.md R183). -/
def lengthByte (tb : BitVec 64) (k : Nat) : Byte := tb.extractLsb' (56 - 8 * k) 8

/-- Digest byte `j = 4i + k`, `byte_k` of word `i` (20_memory.md R67). -/
def digestByte (d : Vector Word 5) (j : Nat) : Byte := byteOf (d[j / 4]?.getD 0#32) (j % 4)

/-- Stores the bytes `b 0 .. b 19` at indices `off .. off+19`, ascending (20_memory.md R70). -/
def storeRange (o : Operands) (b : Nat → Byte) (m : Memory) : Memory :=
  (List.range Config.digestLen).foldl (fun m j => memWrite o m (o.off.toNat + j) (b j)) m

/-- The 20 stores of `FINISHTO`, digest byte `j` at index `off + j`, ascending (40_commands.md R127 step 6). -/
def storeDigest (o : Operands) (d : Vector Word 5) (m : Memory) : Memory :=
  storeRange o (digestByte d) m

/-! ### The end of a command -/

/-- The end of a command (40_commands.md R120): `ERR` is written, `PHASE <- IDLE`, `BUSY <- 0`; the scratch
is unspecified from here on (10_state.md R44; assumption 3). -/
def State.complete (s : State) (e : ErrCode) : State :=
  { s with
    err := e, phase := .idle, busy := false,
    scratch := Config.freeScratch s.draws, draws := s.draws + 1 }

/-- `raise E`, the only trap entry of this core (60_exceptions.md R204): the command ends with `ERR <- E`
and writes nothing else. There is no return from it (R208). -/
def State.raise (s : State) (e : ErrCode) : State := s.complete e


/-! ### The register block -/

/-- Offset of `CMD` (10_state.md R39). -/
def offCmd : Nat := 0x00

/-- Offset of `STATUS` (R39). -/
def offStatus : Nat := 0x04

/-- R40: a naturally aligned 32-bit access inside the 64-byte block. -/
def RegAccess.valid (a : RegAccess) : Bool := decide (a.width = 4 ∧ a.off % 4 = 0 ∧ a.off < 0x40)

/-- What a read at an offset of the block returns (R33, R35 to R39); none where the value is unspecified:
`DOUT` while `FIN = 0` (R33). -/
def State.regValue (s : State) (off : Nat) : Option Word :=
  match off with
  | 0x00 => some 0#32
  | 0x04 => some (statusWord s.busy s.fin s.err)
  | 0x08 => some s.result
  | 0x0C => some s.opr.offset
  | 0x10 => some s.opr.length
  | 0x14 => some s.opr.bufsize
  | 0x18 => some s.opr.bufbase
  | 0x20 => if s.fin then some s.dout[0] else none
  | 0x24 => if s.fin then some s.dout[1] else none
  | 0x28 => if s.fin then some s.dout[2] else none
  | 0x2C => if s.fin then some s.dout[3] else none
  | 0x30 => if s.fin then some s.dout[4] else none
  | _ => some 0#32

/-- A register read: the word goes to the host; an unspecified one is a free value (assumption 4). -/
def State.readReg (s : State) (off : Nat) : State :=
  match s.regValue off with
  | some v => { s with rdata := v }
  | none => { s with rdata := Config.freeRead s.draws, draws := s.draws + 1 }

/-- R187, row `IDLE`: the accepted `CMD` write samples the word and the operands (R242) and sets `BUSY`. -/
def State.acceptCommand (s : State) (w : Word) : State :=
  { s with
    busy := true, phase := .check,
    scratch := { s.scratch with cmd := w, opr := s.opr } }

/-- A register write (R36 to R40): `CMD` issues, the operand registers take the value, all else ignores it. -/
def State.writeReg (s : State) (off : Nat) (v : Word) : State :=
  match off with
  | 0x00 => s.acceptCommand v
  | 0x0C => { s with opr := { s.opr with offset := v } }
  | 0x10 => { s with opr := { s.opr with length := v } }
  | 0x14 => { s with opr := { s.opr with bufsize := v } }
  | 0x18 => { s with opr := { s.opr with bufbase := v } }
  | _ => s

end Sys2Proof.Machine
end

