-- ==== Sys2Proof/Machine/Compress.lean ====
section
/-! DEFINITION. The compression function (spec/41_compression.md): primitives, the datapath, and the
micro-operations `LOADW`, `SCHED`, `ROUND1` to `ROUND4`, `ADDBACK`. -/

namespace Sys2Proof.Machine

/-! ### Primitives -/

/-- `rotl_n(x)`, for `0 < n < 32` (R152). -/
def rotl (n : Nat) (x : Word) : Word := (x <<< n) ||| (x >>> (32 - n))

/-- `Ch` (R153). -/
def ch (b c d : Word) : Word := (b &&& c) ||| (~~~b &&& d)

/-- `Parity` (R154). -/
def parity (b c d : Word) : Word := b ^^^ c ^^^ d

/-- `Maj` (R155). -/
def maj (b c d : Word) : Word := (b &&& c) ||| (b &&& d) ||| (c &&& d)

/-! ### The datapath -/

/-- Schedule word `t` (R28); read with `t < 80` only. -/
def wordAt (w : Vector Word 80) (t : Nat) : Word := w[t]?.getD 0#32

/-- `be32(PB[4t], PB[4t+1], PB[4t+2], PB[4t+3])` (R157, 20_memory.md R65), for `t < 16`. -/
def blockWord (pb : Vector Byte 64) (t : Fin 16) : Word :=
  be32 (pb[4 * t.val]) (pb[4 * t.val + 1]) (pb[4 * t.val + 2]) (pb[4 * t.val + 3])

/-- The data part of `LOADW` (R157): `W[0..15]` from the block, `V` from `H`, `T <- 0`. -/
def Datapath.load (h : Vector Word 5) (pb : Vector Byte 64) (d : Datapath) : Datapath :=
  { v := h
    w := Vector.ofFn fun t => if lt : t.val < 16 then blockWord pb ⟨t.val, lt⟩ else d.w[t]
    t := 0#7 }

/-- The source's recurrence (R158). -/
def schedWord (w : Vector Word 80) (t : Nat) : Word :=
  rotl 1 (wordAt w (t - 3) ^^^ wordAt w (t - 8) ^^^ wordAt w (t - 14) ^^^ wordAt w (t - 16))

/-- `SCHED` at round `t` (R158): writes `W[t]`. -/
def Datapath.sched (t : Nat) (d : Datapath) : Datapath :=
  { d with w := d.w.setIfInBounds t (schedWord d.w t) }

/-- The round transform (R159): the working registers after a round with function `f`, constant `k` and
schedule word `wt`; all right-hand sides read the values before the step. -/
def roundWords (f : Word → Word → Word → Word) (k wt : Word) (v : Vector Word 5) : Vector Word 5 :=
  #v[rotl 5 v[0] + f v[1] v[2] v[3] + v[4] + k + wt, v[0], rotl 30 v[1], v[2], v[3]]

/-- One round at round index `t` (R159 to R162): the working registers move on and `T <- T + 1`. -/
def Datapath.round (f : Word → Word → Word → Word) (k : Word) (t : BitVec 7) (d : Datapath) : Datapath :=
  { v := roundWords f k (wordAt d.w t.toNat) d.v, w := d.w, t := t + 1#7 }

/-- The round of the stage of `T` (R156). -/
def Datapath.stageRound (d : Datapath) : Datapath :=
  if d.t.toNat < 20 then d.round ch k0 d.t
  else if d.t.toNat < 40 then d.round parity k1 d.t
  else if d.t.toNat < 60 then d.round maj k2 d.t
  else d.round parity k3 d.t

/-- One turn of the loop of `COMPRESS` (R164): `SCHED` when `T >= 16`, then the round. -/
def Datapath.turn (d : Datapath) : Datapath :=
  (if 16 ≤ d.t.toNat then d.sched d.t.toNat else d).stageRound

/-- `n` turns of the loop. -/
def Datapath.turns : Nat → Datapath → Datapath
  | 0, d => d
  | n + 1, d => Datapath.turns n d.turn

/-- `H[i] +32 V[i]` for each word (R163). -/
def addWords (h v : Vector Word 5) : Vector Word 5 :=
  #v[h[0] + v[0], h[1] + v[1], h[2] + v[2], h[3] + v[3], h[4] + v[4]]

/-! ### On the state -/

/-- The data part of `LOADW` (R157). -/
def State.loadWords (s : State) : State := { s with dp := s.dp.load s.h s.pb }

/-- The data part of `ADDBACK` (R163). -/
def State.addBack (s : State) : State := { s with h := addWords s.h s.dp.v }

/-- `COMPRESS` (R164): `LOADW`, the 80 rounds, `ADDBACK`. -/
def State.compress (s : State) : State :=
  State.addBack { s with dp := Datapath.turns Config.nRounds (s.dp.load s.h s.pb) }

/-! ### The micro-operations -/

/-- A round as a step of the sequencer: there is no word `W[T]` for `T >= 80` (R99). -/
def roundStep (f : Word → Word → Word → Word) (k : Word) (t : BitVec 7) (s : State) : Result :=
  if t.toNat < Config.nRounds then .next { s with dp := s.dp.round f k t }
  else .fault .unreachedSequencerWord

/-- `LOADW` (R157). -/
def execLoadw (s : State) : Result := .next { s.loadWords with phase := .round }

/-- `SCHED` (R158): it does not run for `T < 16`, and there is no `W[T]` for `T >= 80`. -/
def execSched (t : BitVec 7) (s : State) : Result :=
  if t.toNat < 16 then .next s
  else if t.toNat < Config.nRounds then .next { s with dp := s.dp.sched t.toNat }
  else .fault .unreachedSequencerWord

/-- `ROUND1` (R159): stage 0, `Ch`. -/
def execRound1 (t : BitVec 7) (s : State) : Result := roundStep ch k0 t s

/-- `ROUND2` (R160): stage 1, `Parity`. -/
def execRound2 (t : BitVec 7) (s : State) : Result := roundStep parity k1 t s

/-- `ROUND3` (R161): stage 2, `Maj`. -/
def execRound3 (t : BitVec 7) (s : State) : Result := roundStep maj k2 t s

/-- `ROUND4` (R162): stage 3, `Parity`; the step with `T = 79` hands over to `ADDBACK`. -/
def execRound4 (t : BitVec 7) (s : State) : Result :=
  andThen (roundStep parity k3 t s) fun s' =>
    .next (if t.toNat = 79 then { s' with phase := .addback } else s')

/-- The phase that called `COMPRESS` (R163, R44). -/
def Resume.phase : Resume → Phase
  | .feed => .feed
  | .pad => .pad

/-- `ADDBACK` (R163): `H` takes the sums, `PHASE` the phase that called `COMPRESS`. -/
def execAddback (s : State) : Result := .next { s.addBack with phase := s.scratch.resume.phase }

end Sys2Proof.Machine
end

