-- ==== Sys2Proof/Machine/Buffering.lean ====
section
/-! DEFINITION. Buffering, padding and serialisation (spec/42_buffering_padding.md): the operations as R181
to R186 write them, and the micro-operations of the sequencer. -/

namespace Sys2Proof.Machine

/-! ### The operations as the rules write them -/

/-- Step 1 of `PUTBYTE`: `PB[PL] <- b` (R181). -/
def State.putCell (s : State) (b : Byte) : State := { s with pb := s.pb.set s.pl.val b }

/-- `PUTBYTE(b)` (R181). -/
def State.putByte (s : State) (b : Byte) : State :=
  if s.pl = 63 then { (s.putCell b).compress with pl := 0 }
  else { s.putCell b with pl := s.pl + 1 }

/-- `ABSORB(b)` (R182). -/
def State.absorb (s : State) (b : Byte) : State := { s with tb := s.tb + 8#64 }.putByte b

/-- `ABSORB` of each byte in order: step 6 of `UPDATE` (40_commands.md R124). -/
def State.absorbAll (s : State) (bs : List Byte) : State := bs.foldl State.absorb s

/-- `PUTBYTE` of each byte in order. -/
def State.putAll (s : State) (bs : List Byte) : State := bs.foldl State.putByte s

/-- Step 2 of `PAD`: `while PL != 56: PUTBYTE(0x00)` (R183); the loop body runs at most 63 times, the
argument bounds it. -/
def State.padZeros : Nat → State → State
  | 0, s => s
  | n + 1, s => if s.pl = 56 then s else State.padZeros n (s.putByte 0#8)

/-- Step 3 of `PAD`: the eight length bytes, most significant first (R183). -/
def State.padLength (s : State) : State :=
  s.putAll ((List.range 8).map (lengthByte s.tb))

/-- `PAD` (R183). -/
def State.padAll (s : State) : State := (State.padZeros 64 (s.putByte 0x80#8)).padLength

/-- `SERIALISE` (R185). -/
def State.serialise (s : State) : State := { s with dout := s.h }

/-- `REINIT` (R186). -/
def State.reinit (s : State) : State := { s with h := ivWords, pl := 0, tb := 0#64 }

/-! ### One byte in a step of the sequencer -/

/-- R187, the rows `FEED` and `PAD`: the byte goes into its cell; where it fills the block, the rest of
`PUTBYTE` runs in the steps `LOADW`, `ROUND`, `ADDBACK`, after which the phase `r` goes on. -/
def State.putInStep (s : State) (b : Byte) (r : Resume) : State :=
  if s.pl = 63 then { s.putCell b with phase := .loadw, scratch := { s.scratch with resume := r } }
  else { s.putCell b with pl := s.pl + 1 }

/-- The next input byte of the running `UPDATE`, where `MemRead` is defined (20_memory.md R62). -/
def State.nextInput (s : State) : Option Byte :=
  let idx : Int := s.scratch.opr.off + s.scratch.i.toNat
  if bufferIndexDefined (pField s.scratch.cmd) s.scratch.opr idx then
    some (memRead s.scratch.opr s.mem idx.toNat)
  else none

/-- `ABSORB` of the next input byte, one step in `PHASE = FEED` (R182, R187): `TB <- TB +64 8`, the byte
goes into `PB`, `i <- i + 1`. -/
def execAbsorb (s : State) : Result :=
  match s.nextInput with
  | none => .fault .noInputByte
  | some b =>
    .next ({ s with
      tb := s.tb + 8#64, scratch := { s.scratch with i := s.scratch.i + 1#31 } }.putInStep b .feed)

/-- The next padding byte and the counter after it (R183); none when the eighth length byte has been put. -/
def PadStep.next (p : PadStep) (pl : Fin 64) (tb : BitVec 64) : Option (Byte × PadStep) :=
  match p with
  | .start => some (0x80#8, .zeros)
  | .zeros => if pl = 56 then some (lengthByte tb 0, .length 1) else some (0#8, .zeros)
  | .length k => some (lengthByte tb k.val, if k = 7 then .done else .length (k + 1))
  | .done => none

/-- `PUTBYTE` of the next padding byte, one step in `PHASE = PAD` (R183, R187). -/
def execPad (s : State) : Result :=
  match s.scratch.pad.next s.pl s.tb with
  | none => .fault .noPaddingByte
  | some (b, p) => .next ({ s with scratch := { s.scratch with pad := p } }.putInStep b .pad)

/-- `PUTBYTE(b)` (R181), the whole operation with its `COMPRESS`. -/
def execPutbyte (b : Byte) (s : State) : Result := .next (s.putByte b)

/-- `SERIALISE` (R185). -/
def execSerialise (s : State) : Result := .next s.serialise

/-- `REINIT` (R186). -/
def execReinit (s : State) : Result := .next s.reinit

end Sys2Proof.Machine
end

