-- ==== Sys2Proof/Machine/Commands.lean ====
section
/-! DEFINITION. The six commands and the illegal command word, each one atomic transition
(spec/40_commands.md R120 to R127; 30_encoding.md R96). -/

namespace Sys2Proof.Machine

/-- `GETDLEN` (R121). -/
def execGetdlen (s : State) : Result :=
  .next (State.complete { s with result := BitVec.ofNat 32 Config.digestLen } .ok)

/-- `GETBLEN` (R122). -/
def execGetblen (s : State) : Result :=
  .next (State.complete { s with result := BitVec.ofNat 32 Config.blockLen } .ok)

/-- `RESET` (R123). -/
def execReset (s : State) : Result := .next (State.complete { s.reinit with fin := false } .ok)

/-- `UPDATE` (R124). -/
def execUpdate (p : Bool) (s : State) : Result :=
  match updateCheck p s.opr with
  | .raise e => .next (s.raise e)
  | .nothing => .next (s.complete .ok)
  | .run => .next (({ s with fin := false }.absorbAll (inputBytes s.opr s.mem)).complete .ok)
  | .wraps => .refused .bufferWraps

/-- The state of a finish after `PAD` and `SERIALISE`: steps 1 and 2 of `FINISH` (R125). -/
def State.finished (s : State) : State := s.padAll.serialise

/-- The last steps of a finish: `REINIT`, `FIN <- 1`, `ERR <- OK` (R125 steps 3 to 5, R126). -/
def State.finishEnd (s : State) : State := State.complete { s.reinit with fin := true } .ok

/-- `FINISH` (R125). -/
def execFinish (s : State) : Result := .next s.finished.finishEnd

/-- `FINISHTO` (R127). -/
def execFinishto (p : Bool) (s : State) : Result :=
  match finishtoCheck p s.opr with
  | .raise e => .next (s.raise e)
  | .nothing => .next (s.complete .ok)
  | .run =>
    .next { s.finished with mem := storeDigest s.opr s.finished.dout s.mem }.finishEnd
  | .wraps => .refused .bufferWraps

/-- A command word that encodes no command (R96, 60_exceptions.md R203): `ERR <- ILLEGAL_COMMAND`. -/
def execIllegal (_w : Word) (s : State) : Result := .next (s.raise .illegalCommand)

end Sys2Proof.Machine
end

