-- ==== Sys2Proof/Machine/Dispatch.lean ====
section
/-! DEFINITION. The meaning of each instruction, one arm per constructor of `Instr`. -/

namespace Sys2Proof.Machine

def exec (i : Instr) (s : State) : Host.Outcome State Fault Refusal :=
  match i with
  -- the commands (40_commands.md, 30_encoding.md R96)
  | .getdlen => Sys2Proof.Machine.execGetdlen s
  | .getblen => Sys2Proof.Machine.execGetblen s
  | .reset => Sys2Proof.Machine.execReset s
  | .update p => Sys2Proof.Machine.execUpdate p s
  | .finish => Sys2Proof.Machine.execFinish s
  | .finishto p => Sys2Proof.Machine.execFinishto p s
  | .illegal w => Sys2Proof.Machine.execIllegal w s
  -- the micro-operations (41_compression.md, 42_buffering_padding.md)
  | .absorb => Sys2Proof.Machine.execAbsorb s
  | .loadw => Sys2Proof.Machine.execLoadw s
  | .round1 t => Sys2Proof.Machine.execRound1 t s
  | .round2 t => Sys2Proof.Machine.execRound2 t s
  | .round3 t => Sys2Proof.Machine.execRound3 t s
  | .round4 t => Sys2Proof.Machine.execRound4 t s
  | .sched t => Sys2Proof.Machine.execSched t s
  | .addback => Sys2Proof.Machine.execAddback s
  | .pad => Sys2Proof.Machine.execPad s
  | .serialise => Sys2Proof.Machine.execSerialise s
  | .reinit => Sys2Proof.Machine.execReinit s
  | .putbyte b => Sys2Proof.Machine.execPutbyte b s

end Sys2Proof.Machine
end

