-- ==== Sys2Proof/Machine/HostPort.lean ====
section
/-! DEFINITION. The accesses of the host and the hardware reset event: the register block (10_state.md R39,
R40), the hazards (70_reset_and_hazards.md R240, R241) and reset (R230). -/

namespace Sys2Proof.Machine

/-- The atomic view of a command (R11, R120): the word is decoded and its rule runs to the end. A command
issued while `BUSY = 1` has no meaning (R240, U1). -/
def hostIssue (w : Word) (s : State) : Result :=
  if s.busy then .refused .accessWhileBusy else exec (decodeCmd w) s

/-- Whether the word is a command whose launch premise the operand registers break (R61, U8). -/
def State.launchBroken (s : State) (w : Word) : Bool :=
  match decodeCmd w with
  | .update p => !s.opr.launches p
  | .finishto p => !s.opr.launches p
  | _ => false

/-- A register write (R40); while `BUSY = 1` none is allowed (R240, U1, U11), and at `CMD` none that issues a
command under a broken launch premise (R61, U8). -/
def hostWrite (a : RegAccess) (v : Word) (s : State) : Result :=
  if a.valid = false then .refused .badRegisterAccess
  else if s.busy then .refused .accessWhileBusy
  else if a.off = offCmd ∧ s.launchBroken v = true then .refused .bufferWraps
  else .next (s.writeReg a.off v)

/-- A register read (R40); while `BUSY = 1` only `STATUS` may be read (R240, U11). -/
def hostRead (a : RegAccess) (s : State) : Result :=
  if a.valid = false then .refused .badRegisterAccess
  else if s.busy ∧ a.off ≠ offStatus then .refused .accessWhileBusy
  else .next (s.readReg a.off)

/-- Whether the running command forbids the host a write of address `a` (R241): the input bytes of an
`UPDATE`, the output bytes of a `FINISHTO`. -/
def State.writeForbidden (s : State) (a : Nat) : Bool :=
  match decodeCmd s.scratch.cmd with
  | .update true => s.busy && inBufferRange s.scratch.opr s.scratch.opr.len a
  | .finishto true => s.busy && inBufferRange s.scratch.opr Config.digestLen a
  | _ => false

/-- Whether the running command forbids the host a read of address `a` (R241): the output bytes of a
`FINISHTO`. -/
def State.readForbidden (s : State) (a : Nat) : Bool :=
  match decodeCmd s.scratch.cmd with
  | .finishto true => s.busy && inBufferRange s.scratch.opr Config.digestLen a
  | _ => false

/-- The host reads a byte of its own memory (20_memory.md R73 b). -/
def hostLoad (addr : Word) (s : State) : Result :=
  if s.readForbidden addr.toNat then .refused .bufferTouchedDuringCommand
  else .next { s with rbyte := s.mem.read addr.toNat }

/-- The host writes a byte of its own memory (20_memory.md R73 a). -/
def hostStore (addr : Word) (b : Byte) (s : State) : Result :=
  if s.writeForbidden addr.toNat then .refused .bufferTouchedDuringCommand
  else .next { s with mem := s.mem.write addr.toNat b }

/-- Memory after the reset event (R230): unchanged, but where it strikes a `FINISHTO` that stores, in any phase,
each byte of `off .. off+19` has any value (U12; assumption 14). -/
def State.memAfterReset (s : State) : Memory :=
  match decodeCmd s.scratch.cmd with
  | .finishto p =>
    if s.busy = true ∧ finishtoCheck p s.scratch.opr = .run then
      storeRange s.scratch.opr (Config.freeByte s.draws) s.mem
    else s.mem
  | _ => s.mem

/-- The hardware reset event (R230): the column "hardware reset" of 10_state.md R42, what it leaves
unspecified as free values. The host's own list and latches are not the core's. -/
def State.hardReset (s : State) : State where
  h := ivWords
  pb := Config.freePendingBuffer s.draws
  pl := 0
  tb := 0#64
  fin := false
  dp := { v := Config.freeWorking s.draws, w := Config.freeSchedule s.draws, t := 0#7 }
  phase := .idle
  scratch := Config.freeScratch s.draws
  busy := false
  dout := Config.freeDigest s.draws
  err := .ok
  result := 0#32
  opr := ⟨0#32, 0#32, 0#32, 0#32⟩
  mem := s.memAfterReset
  host := s.host
  rdata := s.rdata
  rbyte := s.rbyte
  draws := s.draws + 1

end Sys2Proof.Machine
end

