-- ==== Sys2Proof/Machine/Sequencer.lean ====
section
/-! DEFINITION. The control flow of the sequencer (spec/42_buffering_padding.md R187). -/

namespace Sys2Proof.Machine

/-- The sequencer word of a state, `PHASE || T` (30_encoding.md R98). -/
def State.seqWord (s : State) : BitVec 10 := Sys2Proof.seqWord s.phase.code s.dp.t

/-- Whether an input byte of the running `UPDATE` remains: `i < len` (R187). -/
def State.inputRemains (s : State) : Bool := decide ((s.scratch.i.toNat : Int) < s.scratch.opr.len)

/-- R187, the rows `CHECK`: decode the sampled word, make the checks of the command, and either complete or
enter `FEED` or `PAD`. -/
def checkStep (s : State) : Result :=
  match decodeCmd s.scratch.cmd with
  | .getdlen => exec .getdlen s
  | .getblen => exec .getblen s
  | .reset => exec .reset s
  | .illegal w => exec (.illegal w) s
  | .update p =>
    match updateCheck p s.scratch.opr with
    | .raise e => .next (s.raise e)
    | .nothing => .next (s.complete .ok)
    | .run => .next { s with fin := false, phase := .feed, scratch := { s.scratch with i := 0#31 } }
    | .wraps => .refused .bufferWraps
  | .finish => .next { s with phase := .pad, scratch := { s.scratch with pad := .start } }
  | .finishto p =>
    match finishtoCheck p s.scratch.opr with
    | .raise e => .next (s.raise e)
    | .nothing => .next (s.complete .ok)
    | .run => .next { s with phase := .pad, scratch := { s.scratch with pad := .start } }
    | .wraps => .refused .bufferWraps
  -- no command word decodes to a micro-operation (R93)
  | .absorb | .loadw | .round1 _ | .round2 _ | .round3 _ | .round4 _ | .sched _ | .addback
  | .pad | .serialise | .reinit | .putbyte _ => .fault .unreachedSequencerWord

/-- R187, the rows `ADDBACK`, beside the micro-operation: `PL <- 0`, and where the command goes on. -/
def State.blockDone (s : State) : State :=
  match s.scratch.resume with
  | .feed => if s.inputRemains then { s with pl := 0 } else State.complete { s with pl := 0 } .ok
  | .pad => if s.scratch.pad = .done then { s with pl := 0, phase := .out } else { s with pl := 0 }

/-- The 20 `MemWrite` of a `FINISHTO` in the `OUT` step (R187, R127 step 6); a `FINISH` has none. Where `MemWrite`
is not defined (20_memory.md R63: `P = 0`, or an index outside the buffer), which no run reaches, the stores are
made all the same: DESIGN CHOICE (assumption 19). -/
def State.storeOut (s : State) : State :=
  match decodeCmd s.scratch.cmd with
  | .finishto _ => { s with mem := storeDigest s.scratch.opr s.dout s.mem }
  | _ => s

/-- What the sequencer adds to a micro-operation in its step (R187): the last byte of `FEED` completes the
command, `ADDBACK` ends the block, `OUT` stores the digest after `SERIALISE` and completes after `REINIT`. -/
def seqControl (i : Instr) (s : State) : State :=
  match i with
  | .absorb => if s.phase = .feed ∧ s.inputRemains = false then s.complete .ok else s
  | .addback => s.blockDone
  | .serialise => s.storeOut
  | .reinit => State.complete { s with fin := true } .ok
  | .getdlen | .getblen | .reset | .update _ | .finish | .finishto _ | .illegal _ | .loadw
  | .round1 _ | .round2 _ | .round3 _ | .round4 _ | .sched _ | .pad | .putbyte _ => s

/-- The micro-operations of one step, in order, each with what the sequencer adds to it. -/
def runOps : List Instr → State → Result
  | [], s => .next s
  | i :: rest, s => andThen (exec i s) fun s' => runOps rest (seqControl i s')

/-- One step of the core: nothing when idle (70_reset_and_hazards.md R245), the checks in `CHECK`, else the
micro-operations the sequencer word selects (30_encoding.md R99). -/
def coreStep (s : State) : Result :=
  match decodeSeq s.seqWord with
  | .error .idle => .next s
  | .error .check => checkStep s
  | .error .unreached => .fault .unreachedSequencerWord
  | .ok ops => runOps ops s

end Sys2Proof.Machine
end

