-- ==== Sys2Proof/Machine/Step.lean ====
section
/-! DEFINITION. One step of the machine: the next entry of the host's list, or a step of the core. -/

namespace Sys2Proof.Machine

/-- The host's next access is taken; with none left, or while it waits, the core makes its own step
(assumption 6). -/
def step (s : State) : Host.Outcome State Fault Refusal :=
  match s.host with
  | [] => coreStep s
  | .tick :: rest => coreStep { s with host := rest }
  | .await :: rest => if s.busy then coreStep s else .next { s with host := rest }
  | .issue w :: rest => hostIssue w { s with host := rest }
  | .write a v :: rest => hostWrite a v { s with host := rest }
  | .read a :: rest => hostRead a { s with host := rest }
  | .load addr :: rest => hostLoad addr { s with host := rest }
  | .store addr b :: rest => hostStore addr b { s with host := rest }
  | .hardReset :: rest => .next (State.hardReset { s with host := rest })

/-- What the fetch of a sequencer word needs beside `PHASE` and `T`: for `FEED`, a running `UPDATE` with a
byte to read; for `PAD`, a padding byte that remains. -/
def Scratch.forFetch (p : Phase) (c : Scratch) : Scratch :=
  match p with
  | .feed => { c with cmd := 0x0000000B#32, opr := ⟨0#32, 1#32, 1#32, 0#32⟩, i := 0#31 }
  | .pad => { c with pad := .start }
  | _ => c

/-- `s` with an instruction placed where the next step takes it: a command word as the host's next command,
a sequencer word in `PHASE` and `T` of a busy core that the host lets make one step. -/
def State.withFetchWord (s : State) (nbits w : Nat) : State :=
  match tableCode nbits w with
  | some (.cmd c) => { s with busy := false, host := .issue c :: s.host }
  | some (.seq c) =>
    { s with
      busy := true, phase := Phase.ofCode (phaseField c), dp := { s.dp with t := tField c },
      scratch := s.scratch.forFetch (Phase.ofCode (phaseField c)), host := .tick :: s.host }
  | none => s

end Sys2Proof.Machine
end

