-- ==== Sys2Proof/Safety.lean ====
section
/-! DEFINITION. The terms claims use: the invariant of the machine (spec/10_state.md R26, R30, R31), the
ordinary end of a command, SHA-1 as a function of a message, and the sequencer's step counts. -/

namespace Sys2Proof.Machine

/-! ### Commands -/

/-- The instructions of format CMD (30_encoding.md R90). -/
def isCommand : Sys2Proof.Instr → Bool
  | .getdlen | .getblen | .reset | .update _ | .finish | .finishto _ | .illegal _ => true
  | .absorb | .loadw | .round1 _ | .round2 _ | .round3 _ | .round4 _ | .sched _ | .addback
  | .pad | .serialise | .reinit | .putbyte _ => false

/-- `s` after a command that ended with `e`: what every command writes at its end (40_commands.md R120). The
scratch is unspecified, so a claim about it holds for some `c`. -/
def State.ended (s : State) (e : ErrCode) (c : Scratch) : State :=
  { s with err := e, phase := .idle, busy := false, scratch := c, draws := s.draws + 1 }

/-- The checks of `UPDATE` with a present buffer pass (R124 steps 1 and 3) and the launch premise of
20_memory.md R61 holds. -/
def Operands.feeds (o : Operands) : Prop :=
  0 ≤ o.off ∧ 0 ≤ o.len ∧ o.off + o.len ≤ o.size ∧ o.bufbase.toNat + o.bufsize.toNat ≤ 2 ^ 32

/-- The checks of `FINISHTO` with a present buffer pass (R127 steps 1 and 3) and the launch premise holds. -/
def Operands.receives (o : Operands) : Prop :=
  0 ≤ o.off ∧ o.off + 20 ≤ o.size ∧ o.bufbase.toNat + o.bufsize.toNat ≤ 2 ^ 32

/-- `UPDATE` with each operand set in turn. -/
def updates : List Operands → State → Result
  | [], s => .next s
  | o :: os, s => andThen (exec (.update true) { s with opr := o }) (updates os)

/-- A sequence of commands, each word with the operand registers the host has set for it, then `FINISH`:
the digest it leaves, or none where the model gives the run no meaning. -/
def digestAfter : List (Operands × Word) → State → Option (Vector Word 5)
  | [], s =>
    match exec .finish s with
    | .next t => some t.dout
    | .fault _ => none
    | .refused _ => none
  | (o, w) :: rest, s =>
    match exec (decodeCmd w) { s with opr := o } with
    | .next t => digestAfter rest t
    | .fault _ => none
    | .refused _ => none

/-- Two states that hold the same computation: the digest state agrees up to `FIN` and the stale cells of
`PB` (10_state.md R22, R41), and so does the host's memory. -/
def SameComputation (s t : State) : Prop :=
  s.h = t.h ∧ s.pl = t.pl ∧ s.tb = t.tb ∧ (∀ i : Fin 64, i < s.pl → s.pb[i] = t.pb[i]) ∧ s.mem = t.mem

/-! ### The invariant -/

/-- R26 item 2: `TB mod 512 = 8 * PL`. -/
def State.countsAgree (s : State) : Prop := s.tb.toNat % 512 = 8 * s.pl.val

/-- R26 item 5, the part about the digest state: with `FIN = 1` it is the initial one. -/
def State.finIsFresh (s : State) : Prop := s.fin = true → s.h = ivWords ∧ s.pl = 0 ∧ s.tb = 0#64

/-- An `UPDATE` whose checks passed is running and has cleared `FIN`. -/
def State.updateRuns (s : State) : Prop :=
  decodeCmd s.scratch.cmd = .update true ∧ s.scratch.opr.feeds ∧ 0 < s.scratch.opr.len ∧ s.fin = false

/-- A finish whose checks passed is running. -/
def State.finishRuns (s : State) : Prop :=
  decodeCmd s.scratch.cmd = .finish ∨
    (decodeCmd s.scratch.cmd = .finishto true ∧ s.scratch.opr.receives)

/-- Where the padding counter can stand before a padding byte is put. -/
def State.padStands (s : State) : Prop :=
  match s.scratch.pad with
  | .start => True
  | .zeros => True
  | .length k => 0 < k.val ∧ s.pl.val = 56 + k.val
  | .done => False

/-- A full block is being compressed for the phase to resume. -/
def State.blockRuns (s : State) : Prop :=
  s.pl = 63 ∧
  match s.scratch.resume with
  | .feed => s.updateRuns ∧ s.tb.toNat % 512 = 0 ∧ (s.scratch.i.toNat : Int) ≤ s.scratch.opr.len
  | .pad => s.finishRuns ∧ (s.scratch.pad = .zeros ∨ s.scratch.pad = .done)

/-- What holds in each phase. -/
def State.phaseInv (s : State) : Prop :=
  match s.phase with
  | .idle => s.countsAgree ∧ s.finIsFresh
  | .check => s.countsAgree ∧ s.finIsFresh
  | .feed => s.updateRuns ∧ s.countsAgree ∧ (s.scratch.i.toNat : Int) < s.scratch.opr.len
  | .loadw => s.blockRuns
  | .round => s.blockRuns ∧ s.dp.t.toNat < 80
  | .addback => s.blockRuns ∧ s.dp.t.toNat = 80
  | .pad => s.finishRuns ∧ s.padStands
  | .out => s.finishRuns ∧ s.pl = 0

/-- The invariant of the machine: memory is canonical, the core is idle exactly while `BUSY = 0` (R31), `T`
lies in 0..80 (R30), and the phase's own condition holds (R26). -/
def State.Inv (s : State) : Prop :=
  s.mem.wf = true ∧ (s.busy = false ↔ s.phase = .idle) ∧ s.dp.t.toNat ≤ 80 ∧ s.phaseInv

/-! ### SHA-1 as a function -/

/-- The function and the constant of the stage of round `t` (41_compression.md R156). -/
def stageOf (t : Nat) : (Word → Word → Word → Word) × Word :=
  if t / 20 = 0 then (ch, 0x5A827999#32)
  else if t / 20 = 1 then (parity, 0x6ED9EBA1#32)
  else if t / 20 = 2 then (maj, 0x8F1BBCDC#32)
  else (parity, 0xCA62C1D6#32)

/-- The next schedule word after the words `ws` (R158). -/
def nextWord (ws : List Word) : Word :=
  let n := ws.length
  rotl 1 (ws.getD (n - 3) 0#32 ^^^ ws.getD (n - 8) 0#32 ^^^ ws.getD (n - 14) 0#32 ^^^ ws.getD (n - 16) 0#32)

/-- `ws` extended by `n` words. -/
def extendSchedule : Nat → List Word → List Word
  | 0, ws => ws
  | n + 1, ws => extendSchedule n (ws ++ [nextWord ws])

/-- The whole schedule of a block before round 0 (R158, corner case; R65 for the first 16 words). -/
def schedule (block : Vector Byte 64) : List Word :=
  extendSchedule 64 (List.ofFn fun t : Fin 16 =>
    be32 block[4 * t.val] block[4 * t.val + 1] block[4 * t.val + 2] block[4 * t.val + 3])

/-- The compression function, `(5 words, 64 bytes) -> 5 words` (R150). -/
def compressFn (h : Vector Word 5) (block : Vector Byte 64) : Vector Word 5 :=
  addWords h ((List.range 80).foldl
    (fun v t => roundWords (stageOf t).1 (stageOf t).2 ((schedule block).getD t 0#32) v) h)

/-- Block `k` of a byte string. -/
def blockAt (bs : List Byte) (k : Nat) : Vector Byte 64 := Vector.ofFn fun i => bs.getD (64 * k + i.val) 0#8

/-- The whole blocks of a byte string, compressed in order from `h`. -/
def compressBlocks (h : Vector Word 5) (bs : List Byte) : Vector Word 5 :=
  (List.range (bs.length / 64)).foldl (fun h k => compressFn h (blockAt bs k)) h

/-- The padding after `p` pending bytes, in closed form (42_buffering_padding.md R184): `0x80`,
`(55 - p) mod 64` zeros, the bit count as eight big-endian bytes. -/
def padBytes (p : Nat) (tb : BitVec 64) : List Byte :=
  0x80#8 :: (List.replicate ((119 - p) % 64) 0#8 ++ (List.range 8).map (lengthByte tb))

/-- SHA-1 of a message: the padded message's blocks compressed from `IV` (R183, R188). -/
def sha1 (m : List Byte) : Vector Word 5 :=
  compressBlocks ivWords (m ++ padBytes (m.length % 64) (BitVec.ofNat 64 (8 * m.length)))

/-- The meaningful cells of the pending buffer, `PB[0..PL-1]` (10_state.md R22). -/
def State.pending (s : State) : List Byte := s.pb.toList.take s.pl.val

/-! ### The 16-word window (10_state.md R29) -/

/-- `w[(t - d) mod 16]`. -/
def windowAt (w : Vector Word 16) (t d : Nat) : Word := (w[(t - d) % 16]?).getD 0#32

/-- One turn of the loop of `COMPRESS` with the circular window in place of `W`. -/
def windowTurn (x : Vector Word 16 × Vector Word 5) (t : Nat) : Vector Word 16 × Vector Word 5 :=
  let w := if 16 ≤ t then
      x.1.setIfInBounds (t % 16)
        (rotl 1 (windowAt x.1 t 3 ^^^ windowAt x.1 t 8 ^^^ windowAt x.1 t 14 ^^^ windowAt x.1 t 16))
    else x.1
  (w, roundWords (stageOf t).1 (stageOf t).2 (windowAt w t 0) x.2)

/-- `COMPRESS` on a 16-word window. -/
def windowCompress (h : Vector Word 5) (block : Vector Byte 64) : Vector Word 5 :=
  addWords h ((List.range 80).foldl windowTurn (Vector.ofFn fun t => blockWord block t, h)).2

/-! ### Steps of the sequencer (70_reset_and_hazards.md R250) -/

/-- The number of sequencer steps of an issued command, from its `CHECK` step on (R250). -/
def stepCount (w : Word) (s : State) : Nat :=
  let p := s.pl.val
  let finish := 1 + (1 + (119 - p) % 64 + 8) + 82 * (if p ≤ 55 then 1 else 2) + 1
  match decodeCmd w with
  | .update true =>
    if updateCheck true s.opr = .run then
      1 + s.opr.len.toNat + 82 * ((p + s.opr.len.toNat) / 64)
    else 1
  | .finish => finish
  | .finishto true => if finishtoCheck true s.opr = .run then finish else 1
  | _ => 1

end Sys2Proof.Machine
end

