-- ==== Sys2Proof/Certificates/Slice0/Obligations.lean ====
section
/-! DEFINITION. The statements for the provers. Each docstring names the rule of spec/ it formalises. In every
statement about a finished command `c` is the sequencer scratch, which the spec leaves unspecified
(10_state.md R42, R44): the statement holds for some `c` and says nothing of it. -/

open Sys2Proof Sys2Proof.Machine

/-! ### Encoding -/

/-- Every well-formed command word decodes back to its instruction, every well-formed sequencer word to a
step that runs its micro-operation (30_encoding.md R91, R93, R96, R98, R99). `PUTBYTE` has no selector. -/
def Obligations.DecodeOfEncodeGivesTheInstruction : Prop :=
  ∀ i : Instr, i.wellFormed = true → (∀ b, i ≠ .putbyte b) →
    if isCommand i then decode (encode i) = .ok [i]
    else ∃ ops, decode (encode i) = .ok ops ∧ i ∈ ops

/-- R93: the decoder as the rule words it, by `word & 0xFFFFFFF7`; every other result is illegal (R96). -/
def Obligations.CommandWordDecodesByItsMask : Prop :=
  ∀ w : Word,
    decodeCmd w =
      if w &&& 0xFFFFFFF7#32 = 0#32 then .getdlen
      else if w &&& 0xFFFFFFF7#32 = 1#32 then .getblen
      else if w &&& 0xFFFFFFF7#32 = 2#32 then .reset
      else if w &&& 0xFFFFFFF7#32 = 3#32 then .update (w.getLsbD 3)
      else if w &&& 0xFFFFFFF7#32 = 4#32 then .finish
      else if w &&& 0xFFFFFFF7#32 = 5#32 then .finishto (w.getLsbD 3)
      else .illegal w

/-- What decoding reads is well-formed, and encoding it again gives the word back but for the bit `P` that
four commands ignore (30_encoding.md R92, R93, R96). -/
def Obligations.EncodeOfDecodeGivesTheWord : Prop :=
  ∀ w : Word, (decodeCmd w).wellFormed = true ∧
    (encode (decodeCmd w) = .cmd w ∨
      (encode (decodeCmd w) = .cmd (w &&& 0xFFFFFFF7#32) ∧
        (decodeCmd w = .getdlen ∨ decodeCmd w = .getblen ∨ decodeCmd w = .reset ∨ decodeCmd w = .finish)))

/-- Words written out from 30_encoding.md R93, R96 and R99 (the tables of 95_test_vectors.md 5.1, 5.2). -/
def Obligations.SampleWordsDecode : Prop :=
  decodeCmd 0b00000000000000000000000000000000#32 = .getdlen ∧
  decodeCmd 0b00000000000000000000000000001001#32 = .getblen ∧
  decodeCmd 0b00000000000000000000000000000010#32 = .reset ∧
  decodeCmd 0b00000000000000000000000000000011#32 = .update false ∧
  decodeCmd 0b00000000000000000000000000001011#32 = .update true ∧
  decodeCmd 0b00000000000000000000000000001100#32 = .finish ∧
  decodeCmd 0b00000000000000000000000000001101#32 = .finishto true ∧
  decodeCmd 0b00000000000000000000000000010011#32 = .illegal 0x13#32 ∧
  decodeSeq 0b0101010000#10 = .ok [.absorb] ∧
  decodeSeq 0b1000001111#10 = .ok [.round1 15#7] ∧
  decodeSeq 0b1000010000#10 = .ok [.sched 16#7, .round1 16#7] ∧
  decodeSeq 0b1000111100#10 = .ok [.sched 60#7, .round4 60#7] ∧
  decodeSeq 0b1111010000#10 = .ok [.serialise, .reinit] ∧
  decodeSeq 0b0000000000#10 = .error .idle

/-! ### The step -/

/-- When the host's next access issues a command word of a well-formed command and the core is not busy, the
step is that command's meaning (the atomic view, 00_scope.md R11, 40_commands.md R120). The host's list and its
entry `issue` are the model's choice (log entry 6). -/
def Obligations.StepRunsTheIssuedCommand : Prop :=
  ∀ (s : State) (i : Instr) (w : Word) (rest : List HostAction),
    i.wellFormed = true → isCommand i = true → encode i = .cmd w →
    s.busy = false → s.host = .issue w :: rest →
    step s = exec i { s with host := rest }

/-- In every phase but IDLE and CHECK the step runs the micro-operations that `PHASE || T` selects, in the
order of 30_encoding.md R99, and after each what 42_buffering_padding.md R187 adds to it: the last input byte
completes the command, ADDBACK ends the block, OUT stores the digest and completes. Three points are the model's
choice, not the spec's: ADDBACK runs at every `T`, though R99 gives `T = 80` only (log entry 11), ROUND with
`T >= 80`, which R99 says is never reached, stops as `unreachedSequencerWord` (log entries 11 and 15), and OUT stores
the digest of a `FINISHTO` also where `MemWrite` is not defined, which no run reaches (log entry 19). -/
def Obligations.StepRunsTheSelectedMicroOperations : Prop :=
  ∀ s : State, s.host = [] →
    (s.phase = .feed → step s = andThen (exec .absorb s) fun a =>
      .next (if a.phase = .feed ∧ ¬ (a.scratch.i.toNat : Int) < a.scratch.opr.len then a.complete .ok else a)) ∧
    (s.phase = .loadw → step s = exec .loadw s) ∧
    (s.phase = .round → s.dp.t.toNat < 16 → step s = exec (.round1 s.dp.t) s) ∧
    (s.phase = .round → 16 ≤ s.dp.t.toNat → s.dp.t.toNat < 20 →
      step s = andThen (exec (.sched s.dp.t) s) (exec (.round1 s.dp.t))) ∧
    (s.phase = .round → 20 ≤ s.dp.t.toNat → s.dp.t.toNat < 40 →
      step s = andThen (exec (.sched s.dp.t) s) (exec (.round2 s.dp.t))) ∧
    (s.phase = .round → 40 ≤ s.dp.t.toNat → s.dp.t.toNat < 60 →
      step s = andThen (exec (.sched s.dp.t) s) (exec (.round3 s.dp.t))) ∧
    (s.phase = .round → 60 ≤ s.dp.t.toNat → s.dp.t.toNat < 80 →
      step s = andThen (exec (.sched s.dp.t) s) (exec (.round4 s.dp.t))) ∧
    (s.phase = .round → 80 ≤ s.dp.t.toNat → step s = .fault .unreachedSequencerWord) ∧
    (s.phase = .addback → step s = andThen (exec .addback s) fun a =>
      .next (match a.scratch.resume with
        | .feed =>
          if (a.scratch.i.toNat : Int) < a.scratch.opr.len then { a with pl := 0 }
          else State.complete { a with pl := 0 } .ok
        | .pad => if a.scratch.pad = .done then { a with pl := 0, phase := .out } else { a with pl := 0 })) ∧
    (s.phase = .pad → step s = exec .pad s) ∧
    (s.phase = .out → step s = andThen (exec .serialise s) fun a =>
      andThen (exec .reinit (a.storeOut)) fun b => .next (State.complete { b with fin := true } .ok))

/-- R187, the first row: a write of `CMD` to an idle core samples the word and the operands (R242), sets
`BUSY` and enters CHECK; nothing else changes. A word that issues an `UPDATE` or `FINISHTO` with a present buffer
under a broken launch premise is refused instead (20_memory.md R61, 93_implementation_defined.md U8). -/
def Obligations.CmdWriteSamplesAndEntersCheck : Prop :=
  ∀ (s : State) (w : Word) (rest : List HostAction), s.busy = false →
    s.host = .write { off := 0, width := 4 } w :: rest →
    let broken := (decodeCmd w = .update true ∨ decodeCmd w = .finishto true) ∧
      2 ^ 32 < s.opr.bufbase.toNat + s.opr.bufsize.toNat
    (broken → step s = .refused .bufferWraps) ∧
    (¬ broken → step s = .next { s with
      host := rest, busy := true, phase := .check,
      scratch := { cmd := w, opr := s.opr, i := s.scratch.i, pad := s.scratch.pad, j := s.scratch.j,
                   resume := s.scratch.resume } })

/-- 60_exceptions.md R223, 70_reset_and_hazards.md R245: an idle core keeps all state until the next access
of the host, for any number of steps. -/
def Obligations.IdleCoreKeepsAllState : Prop :=
  ∀ (s : State) (n : Nat), s.phase = .idle → s.host = [] → Sys2Proof.core.run n s = .next s

/-! ### The host's side -/

/-- R38: the layout of `STATUS`. -/
def Obligations.StatusShowsBusyFinAndErr : Prop :=
  ∀ (busy fin : Bool) (e : ErrCode),
    (statusWord busy fin e).getLsbD 0 = busy ∧ (statusWord busy fin e).getLsbD 1 = fin ∧
    (statusWord busy fin e).extractLsb' 2 2 =
      (match e with
        | .ok => 0#2
        | .nullInput => 1#2
        | .invalidArgument => 2#2
        | .illegalCommand => 3#2) ∧
    (statusWord busy fin e).extractLsb' 4 28 = 0#28

/-- R39, R40, R33: what a register read returns, and that it changes nothing else. `DOUT` while `FIN = 0`
returns some word (log entry 4). The latch `rdata` is the model's own (log entry 7). -/
def Obligations.RegisterReadsFollowTheMap : Prop :=
  ∀ (s : State) (off : Nat) (rest : List HostAction), s.busy = false → off % 4 = 0 → off < 0x40 →
    s.host = .read { off := off, width := 4 } :: rest →
    ∃ (v : Word) (n : Nat), step s = .next { s with host := rest, rdata := v, draws := n } ∧
      (off = 0x00 → v = 0#32) ∧ (off = 0x04 → v = statusWord false s.fin s.err) ∧
      (off = 0x08 → v = s.result) ∧ (off = 0x0C → v = s.opr.offset) ∧ (off = 0x10 → v = s.opr.length) ∧
      (off = 0x14 → v = s.opr.bufsize) ∧ (off = 0x18 → v = s.opr.bufbase) ∧
      (off = 0x1C → v = 0#32) ∧ (0x34 ≤ off → v = 0#32) ∧
      (∀ i : Fin 5, s.fin = true → off = 0x20 + 4 * i.val → v = s.dout[i])

/-- R36, R39, R40: a write sets its operand register; read-only and reserved offsets ignore it. -/
def Obligations.RegisterWritesFollowTheMap : Prop :=
  ∀ (s : State) (off : Nat) (v : Word) (rest : List HostAction), s.busy = false → off % 4 = 0 → off < 0x40 →
    off ≠ 0 → s.host = .write { off := off, width := 4 } v :: rest →
    step s = .next { s with
      host := rest,
      opr := { offset := if off = 0x0C then v else s.opr.offset
               length := if off = 0x10 then v else s.opr.length
               bufsize := if off = 0x14 then v else s.opr.bufsize
               bufbase := if off = 0x18 then v else s.opr.bufbase } }

/-- R40: an access of another width, a misaligned access and one at offset 0x40 or more are refused. -/
def Obligations.BadRegisterAccessIsRefused : Prop :=
  ∀ (s : State) (a : RegAccess) (v : Word) (rest : List HostAction),
    (a.width ≠ 4 ∨ a.off % 4 ≠ 0 ∨ 0x40 ≤ a.off) →
    (s.host = .read a :: rest → step s = .refused .badRegisterAccess) ∧
    (s.host = .write a v :: rest → step s = .refused .badRegisterAccess)

/-- R240: while `BUSY = 1` the host may read `STATUS`, which shows `BUSY`, and nothing else; a second command
is refused. -/
def Obligations.BusyCoreAdmitsOnlyStatusReads : Prop :=
  ∀ (s : State) (off : Nat) (v : Word) (rest : List HostAction), s.busy = true → off % 4 = 0 → off < 0x40 →
    (s.host = .issue v :: rest → step s = .refused .accessWhileBusy) ∧
    (s.host = .write { off := off, width := 4 } v :: rest → step s = .refused .accessWhileBusy) ∧
    (s.host = .read { off := off, width := 4 } :: rest → off ≠ 4 → step s = .refused .accessWhileBusy) ∧
    (s.host = .read { off := off, width := 4 } :: rest → off = 4 →
      step s = .next { s with host := rest, rdata := statusWord true s.fin s.err })

/-- R241: during an `UPDATE` the host must not write its input bytes, during a `FINISHTO` neither read nor
write its output bytes; every other access of its memory goes on as usual (R73). The ranges are
`off .. off+len-1` and `off .. off+19` even where they leave the buffer, which only a command that will fail its
checks can ask for: the model's choice (log entry 18). -/
def Obligations.BuffersAreStableDuringACommand : Prop :=
  ∀ (s : State) (a : Word) (b : Byte) (rest : List HostAction),
    let start : Int := s.scratch.opr.bufbase.toNat + s.scratch.opr.offset.toInt
    let inInput := start ≤ a.toNat ∧ (a.toNat : Int) < start + s.scratch.opr.length.toInt
    let inOutput := start ≤ a.toNat ∧ (a.toNat : Int) < start + 20
    let update := s.busy = true ∧ decodeCmd s.scratch.cmd = .update true
    let finishto := s.busy = true ∧ decodeCmd s.scratch.cmd = .finishto true
    (s.host = .store a b :: rest →
      ((update ∧ inInput ∨ finishto ∧ inOutput) → step s = .refused .bufferTouchedDuringCommand) ∧
      (¬ (update ∧ inInput ∨ finishto ∧ inOutput) →
        step s = .next { s with host := rest, mem := s.mem.write a.toNat b })) ∧
    (s.host = .load a :: rest →
      (finishto ∧ inOutput → step s = .refused .bufferTouchedDuringCommand) ∧
      (¬ (finishto ∧ inOutput) → step s = .next { s with host := rest, rbyte := s.mem.read a.toNat }))

/-- R230, R42: the hardware reset event, in any state, gives every element the value R42 states; memory keeps
every byte but the 20 output bytes of a running `FINISHTO` whose operands pass its checks, of which nothing is said
(93_implementation_defined.md U12: any value). That one whose checks fail has no such bytes is the model's reading
(log entry 14). -/
def Obligations.HardwareResetGivesTheResetColumn : Prop :=
  ∀ (s : State) (rest : List HostAction), s.mem.wf = true → s.host = .hardReset :: rest →
    ∃ t, step s = .next t ∧
      t.h = ivWords ∧ t.pl = 0 ∧ t.tb = 0#64 ∧ t.fin = false ∧ t.dp.t = 0#7 ∧ t.phase = .idle ∧
      t.busy = false ∧ t.err = .ok ∧ t.result = 0#32 ∧ t.opr = ⟨0#32, 0#32, 0#32, 0#32⟩ ∧
      t.host = rest ∧ t.mem.wf = true ∧
      (¬ (s.busy = true ∧ decodeCmd s.scratch.cmd = .finishto true ∧ s.scratch.opr.receives) → t.mem = s.mem) ∧
      (∀ a, (∀ j < 20, a ≠ s.scratch.opr.addr (s.scratch.opr.off.toNat + j)) → t.mem.read a = s.mem.read a)

/-! ### The commands -/

/-- R121: `GETDLEN` gives `RESULT = 20` and `ERR = OK` in every state and changes nothing else. -/
def Obligations.GetdlenReturnsTwenty : Prop :=
  ∀ s : State, ∃ c, exec .getdlen s = .next (State.ended { s with result := 20#32 } .ok c)

/-- R122: `GETBLEN` gives `RESULT = 64` and `ERR = OK` in every state and changes nothing else. -/
def Obligations.GetblenReturnsSixtyFour : Prop :=
  ∀ s : State, ∃ c, exec .getblen s = .next (State.ended { s with result := 64#32 } .ok c)

/-- R123: `RESET` restores `H`, `PL`, `TB`, clears `FIN`, and writes none of `PB`, `V`, `W`, `T`, `DOUT`,
`RESULT`, the operand registers; a second `RESET` changes nothing of the digest state (R129). -/
def Obligations.ResetRestoresTheInitialDigestState : Prop :=
  ∀ s : State, ∃ c, exec .reset s = .next (State.ended
    { s with
      h := #v[0x67452301#32, 0xEFCDAB89#32, 0x98BADCFE#32, 0x10325476#32, 0xC3D2E1F0#32],
      pl := 0, tb := 0#64, fin := false } .ok c)

/-- R96, R203: an illegal command word ends with `ERR = ILLEGAL_COMMAND` and changes nothing else. -/
def Obligations.IllegalWordOnlySetsErr : Prop :=
  ∀ (s : State) (w : Word), (w.extractLsb' 4 28 ≠ 0#28 ∨ 6 ≤ (w.extractLsb' 0 3).toNat) →
    decodeCmd w = .illegal w ∧ ∃ c, exec (.illegal w) s = .next (State.ended s .illegalCommand c)

/-- 60_exceptions.md R201, R202, R205, R206: which error `UPDATE` and `FINISHTO` report for which operands,
and (R204) that the command then writes nothing but its end. Where two conditions apply the code is the spec's
default, taken by the model (log entry 9). With a present buffer the launch premise of 20_memory.md R61 is asked
(log entry 8); `WrappingBufferIsRefused` says what happens without it. -/
def Obligations.ArgumentErrorsAreReportedInOrder : Prop :=
  ∀ (s : State) (p : Bool),
    let off := s.opr.offset.toInt
    let len := s.opr.length.toInt
    let size : Int := s.opr.bufsize.toNat
    let launch := s.opr.bufbase.toNat + s.opr.bufsize.toNat ≤ 2 ^ 32
    ((p = true → launch) → (off < 0 ∨ len < 0) →
      ∃ c, exec (.update p) s = .next (s.ended .invalidArgument c)) ∧
    (0 ≤ off → 0 < len → ∃ c, exec (.update false) s = .next (s.ended .nullInput c)) ∧
    (launch → 0 ≤ off → 0 ≤ len → size < off + len →
      ∃ c, exec (.update true) s = .next (s.ended .invalidArgument c)) ∧
    ((p = true → launch) → off < 0 → ∃ c, exec (.finishto p) s = .next (s.ended .invalidArgument c)) ∧
    (0 ≤ off → ∃ c, exec (.finishto false) s = .next (s.ended .nullInput c)) ∧
    (launch → 0 ≤ off → size < off + 20 → ∃ c, exec (.finishto true) s = .next (s.ended .invalidArgument c))

/-- R124 steps 2 and 4, R71: a zero-length `UPDATE` within the bounds and under the launch premise (20_memory.md
R61), and one with an absent buffer, succeed and leave all state unchanged, `FIN` too. -/
def Obligations.ZeroLengthUpdateChangesNothing : Prop :=
  ∀ (s : State) (p : Bool), s.opr.length = 0#32 → 0 ≤ s.opr.offset.toInt →
    (p = true → s.opr.bufbase.toNat + s.opr.bufsize.toNat ≤ 2 ^ 32 ∧
      s.opr.offset.toInt ≤ (s.opr.bufsize.toNat : Int)) →
    ∃ c, exec (.update p) s = .next (s.ended .ok c)

/-- R124: an `UPDATE` whose checks pass completes. `PL`, `TB`, `FIN`, `ERR` as its closed form says; `H` is
the compression of the whole blocks of the pending bytes followed by the input, the rest of which is what
`PB` now holds (10_state.md R26 items 3 and 4); nothing else but the scratch of `COMPRESS` changes, no byte
of memory among it (R70). -/
def Obligations.UpdateFeedsTheBytes : Prop :=
  ∀ s : State, s.opr.feeds → 0 < s.opr.len →
    let n := s.opr.len.toNat
    let bytes := (List.range n).map fun i => s.mem.read (s.opr.bufbase.toNat + s.opr.off.toNat + i)
    let p := s.pl.val
    ∃ (t : State) (c : Scratch), exec (.update true) s = .next t ∧
      t.pl.val = (p + n) % 64 ∧ t.tb = s.tb + BitVec.ofNat 64 (8 * n) ∧ t.fin = false ∧
      t.h = compressBlocks s.h (s.pending ++ bytes) ∧
      t.pending = (s.pending ++ bytes).drop (64 * ((p + n) / 64)) ∧
      (p + n < 64 → t.dp = s.dp) ∧
      t = State.ended { s with h := t.h, pb := t.pb, pl := t.pl, tb := t.tb, fin := false, dp := t.dp } .ok c

/-- R125, R126: `FINISH` completes in every state. `DOUT` is the compression of the pending bytes and their
padding (R184), `H`, `PL`, `TB` are the initial ones, `FIN = 1`, and nothing else but `PB` and the scratch of
`COMPRESS` changes. -/
def Obligations.FinishDeliversTheDigest : Prop :=
  ∀ s : State, ∃ (t : State) (c : Scratch), exec .finish s = .next t ∧
    t.dout = compressBlocks s.h (s.pending ++ padBytes s.pl.val s.tb) ∧
    t = State.ended { s with
      h := #v[0x67452301#32, 0xEFCDAB89#32, 0x98BADCFE#32, 0x10325476#32, 0xC3D2E1F0#32],
      pl := 0, tb := 0#64, fin := true, pb := t.pb, dp := t.dp, dout := t.dout } .ok c

/-- R127, 20_memory.md R67: a `FINISHTO` whose checks pass ends as `FINISH` does, and digest byte `j` stands
at buffer index `off + j`; every byte outside those 20 reads as before (corner case d). -/
def Obligations.FinishtoStoresTheDigest : Prop :=
  ∀ s : State, s.opr.receives → s.mem.wf = true →
    ∃ (u : State) (m : Memory), exec .finish s = .next u ∧ exec (.finishto true) s = .next { u with mem := m } ∧
      m.wf = true ∧
      (∀ i : Fin 5, ∀ k < 4, m.read (s.opr.bufbase.toNat + s.opr.off.toNat + (4 * i.val + k)) =
        (u.dout[i]).extractLsb' (24 - 8 * k) 8) ∧
      (∀ a, (∀ j < 20, a ≠ s.opr.bufbase.toNat + s.opr.off.toNat + j) → m.read a = s.mem.read a)

/-- 20_memory.md R61, 70_reset_and_hazards.md R245 L3, U8: a command with a present buffer under a broken launch
premise is refused, whatever its other operands are (log entry 8); with an absent buffer the premise is not asked:
the command completes. -/
def Obligations.WrappingBufferIsRefused : Prop :=
  ∀ s : State, 2 ^ 32 < s.opr.bufbase.toNat + s.opr.bufsize.toNat →
    exec (.update true) s = .refused .bufferWraps ∧ exec (.finishto true) s = .refused .bufferWraps ∧
    (∃ e c, exec (.update false) s = .next (s.ended e c)) ∧
    (∃ e c, exec (.finishto false) s = .next (s.ended e c))

/-- R180, R4: from the initial digest state, whatever stale data the core holds, feeding a message in any
number of `UPDATE`s and finishing leaves SHA-1 of the concatenated bytes in `DOUT`. -/
def Obligations.HashingAMessageInPiecesGivesItsSha1 : Prop :=
  ∀ (s : State) (os : List Operands), s.h = ivWords → s.pl = 0 → s.tb = 0#64 →
    (∀ o ∈ os, o.feeds) →
    ∃ t u, updates os s = .next t ∧ exec .finish t = .next u ∧
      u.dout = sha1 (os.flatMap fun o => inputBytes o s.mem)

/-- R128: one `UPDATE` of a range and two `UPDATE`s of its two parts end in the same digest state, cell for
cell and scratch included. -/
def Obligations.SplittingAnUpdateChangesNothing : Prop :=
  ∀ (s : State) (o o₁ o₂ : Operands), o.feeds → o₁.feeds → o₂.feeds →
    o₁.bufbase = o.bufbase → o₂.bufbase = o.bufbase → o₁.off = o.off → o₂.off = o.off + o₁.len →
    o.len = o₁.len + o₂.len →
    ∃ t u, updates [o] s = .next t ∧ updates [o₁, o₂] s = .next u ∧
      t.h = u.h ∧ t.pb = u.pb ∧ t.pl = u.pl ∧ t.tb = u.tb ∧ t.fin = u.fin ∧ t.dp = u.dp

/-- R131, R204: a command that ends with an error leaves every element as it was, but `ERR` and the fields of
its completion. -/
def Obligations.FailedCommandsAreInvisible : Prop :=
  ∀ (s t : State) (i : Instr), isCommand i = true → exec i s = .next t → t.err ≠ .ok →
    ∃ c, t = s.ended t.err c

/-- 10_state.md R41, R22: stale cells of `PB`, `V`, `W`, `T`, an old `DOUT`, `FIN`, `RESULT` and `ERR` cannot
reach a digest: two states that hold the same computation give the same digest after any commands. -/
def Obligations.StaleStateNeverReachesADigest : Prop :=
  ∀ (s t : State) (cs : List (Operands × Word)), SameComputation s t → digestAfter cs s = digestAfter cs t

/-- R126: for every command sequence the digest after `FINISH; s; FINISH` is that after `RESET; s; FINISH`. -/
def Obligations.FinishReinitialisesLikeReset : Prop :=
  ∀ s : State, ∃ t u, exec .finish s = .next t ∧ exec .reset s = .next u ∧
    ∀ cs, digestAfter cs t = digestAfter cs u

/-- Whole-machine rules of 10_state.md: the core never writes an operand register (R36); only the getters
write `RESULT` (R35); only a finish and `SERIALISE` write `DOUT` (R33); only `FINISHTO` writes memory
(20_memory.md R70); only `ADDBACK`, a block's compression and `REINIT` write `H` (R21). -/
def Obligations.EachRegisterHasOnlyItsWriters : Prop :=
  ∀ (s t : State) (i : Instr), exec i s = .next t →
    t.opr = s.opr ∧ t.host = s.host ∧ t.rdata = s.rdata ∧ t.rbyte = s.rbyte ∧
    (i ≠ .getdlen → i ≠ .getblen → t.result = s.result) ∧
    (i ≠ .finish → (∀ p, i ≠ .finishto p) → i ≠ .serialise → t.dout = s.dout) ∧
    ((∀ p, i ≠ .finishto p) → t.mem = s.mem) ∧
    (i ≠ .reset → i ≠ .finish → (∀ p, i ≠ .finishto p) → (∀ p, i ≠ .update p) → i ≠ .reinit →
      i ≠ .absorb → t.tb = s.tb) ∧
    (i ≠ .reset → i ≠ .finish → (∀ p, i ≠ .finishto p) → (∀ p, i ≠ .update p) → t.fin = s.fin) ∧
    (i ≠ .reset → i ≠ .finish → (∀ p, i ≠ .finishto p) → (∀ p, i ≠ .update p) → i ≠ .reinit →
      i ≠ .addback → (∀ b, i ≠ .putbyte b) → t.h = s.h)

/-! ### The micro-operations -/

/-- R152: bit `i` of `x` moves to bit `(i + n) mod 32`. -/
def Obligations.RotlMovesEachBit : Prop :=
  ∀ (x : Word) (n i : Nat), 0 < n → n < 32 → i < 32 → (rotl n x).getLsbD ((i + n) % 32) = x.getLsbD i

/-- R153, R154, R155: the truth tables of `Ch`, `Parity` and `Maj`, bit by bit. -/
def Obligations.RoundFunctionsFollowTheirTruthTables : Prop :=
  ∀ (b c d : Word) (i : Nat), i < 32 →
    (ch b c d).getLsbD i = (if b.getLsbD i then c.getLsbD i else d.getLsbD i) ∧
    ((parity b c d).getLsbD i = true ↔
      ((b.getLsbD i).toNat + (c.getLsbD i).toNat + (d.getLsbD i).toNat) % 2 = 1) ∧
    ((maj b c d).getLsbD i = true ↔
      2 ≤ (b.getLsbD i).toNat + (c.getLsbD i).toNat + (d.getLsbD i).toNat)

/-- R157, 20_memory.md R65: `LOADW` loads the 16 big-endian words, `V <- H`, `T <- 0`, goes to ROUND, and
leaves `W[16..79]` and everything else alone. -/
def Obligations.LoadwLoadsTheBlock : Prop :=
  ∀ s : State, ∃ w : Vector Word 80,
    exec .loadw s = .next { s with dp := { v := s.h, w := w, t := 0#7 }, phase := .round } ∧
    (∀ t : Fin 16, (w[t.val]).toNat =
      (s.pb[4 * t.val]).toNat * 2 ^ 24 + (s.pb[4 * t.val + 1]).toNat * 2 ^ 16 +
      (s.pb[4 * t.val + 2]).toNat * 2 ^ 8 + (s.pb[4 * t.val + 3]).toNat) ∧
    (∀ t : Fin 80, 16 ≤ t.val → w[t] = s.dp.w[t])

/-- R158: `SCHED` writes `W[T]` by the recurrence and nothing else; it does not run for `T < 16`. `T` is the
instruction's operand, which stands for the register `T`: the model's choice (log entry 13). -/
def Obligations.SchedExtendsTheSchedule : Prop :=
  ∀ (s : State) (t : BitVec 7),
    (t.toNat < 16 → exec (.sched t) s = .next s) ∧
    (∀ (_ : 16 ≤ t.toNat) (lt : t.toNat < 80), ∃ w : Vector Word 80,
      exec (.sched t) s = .next { s with dp := { v := s.dp.v, w := w, t := s.dp.t } } ∧
      w[t.toNat] = rotl 1 (s.dp.w[t.toNat - 3] ^^^ s.dp.w[t.toNat - 8] ^^^
        s.dp.w[t.toNat - 14] ^^^ s.dp.w[t.toNat - 16]) ∧
      (∀ u : Fin 80, u.val ≠ t.toNat → w[u] = s.dp.w[u]))

/-- R159 to R162: each round with its stage's function and constant, on the values before the step; `W` and
everything else unchanged; `PHASE` goes to ADDBACK with the round of `T = 79` only. `T` is the instruction's
operand, which stands for the register `T`: the model's choice (log entry 13). -/
def Obligations.RoundsApplyTheTransform : Prop :=
  ∀ (s : State) (t : BitVec 7) (lt : t.toNat < 80),
    let a := s.dp.v[0]
    let b := s.dp.v[1]
    let c := s.dp.v[2]
    let d := s.dp.v[3]
    let e := s.dp.v[4]
    let wt := s.dp.w[t.toNat]
    let after (temp : Word) : Datapath := { v := #v[temp, a, rotl 30 b, c, d], w := s.dp.w, t := t + 1#7 }
    (t.toNat ≤ 19 → exec (.round1 t) s = .next { s with
      dp := after (rotl 5 a + ((b &&& c) ||| (~~~b &&& d)) + e + 0x5A827999#32 + wt) }) ∧
    (20 ≤ t.toNat → t.toNat ≤ 39 → exec (.round2 t) s = .next { s with
      dp := after (rotl 5 a + (b ^^^ c ^^^ d) + e + 0x6ED9EBA1#32 + wt) }) ∧
    (40 ≤ t.toNat → t.toNat ≤ 59 → exec (.round3 t) s = .next { s with
      dp := after (rotl 5 a + ((b &&& c) ||| (b &&& d) ||| (c &&& d)) + e + 0x8F1BBCDC#32 + wt) }) ∧
    (60 ≤ t.toNat → exec (.round4 t) s = .next { s with
      phase := if t.toNat = 79 then .addback else s.phase,
      dp := after (rotl 5 a + (b ^^^ c ^^^ d) + e + 0xCA62C1D6#32 + wt) })

/-- R163, R151: `ADDBACK` adds each working register into its hash word modulo 2^32 and hands back to the
phase that called `COMPRESS`. -/
def Obligations.AddbackAddsTheWorkingRegisters : Prop :=
  ∀ s : State, ∃ h : Vector Word 5,
    exec .addback s = .next { s with
      h := h, phase := (match s.scratch.resume with | .feed => Phase.feed | .pad => Phase.pad) } ∧
    ∀ i : Fin 5, (h[i]).toNat = ((s.h[i]).toNat + (s.dp.v[i]).toNat) % 2 ^ 32

/-- R150, R158, R164: `COMPRESS` is the pure function of the hash words and the block that computes the whole
schedule first; it writes `H`, `V`, `W`, `T` only, and leaves `T = 80`. -/
def Obligations.CompressIsAPureFunctionOfHashAndBlock : Prop :=
  ∀ s : State, s.compress.dp.t = 80#7 ∧
    s.compress = { s with h := compressFn s.h s.pb, dp := s.compress.dp }

/-- R29: the 16-word circular window gives the same compression as the 80-entry file. -/
def Obligations.SixteenWordWindowIsIndistinguishable : Prop :=
  ∀ s : State, s.compress.h = windowCompress s.h s.pb

/-- R181: `PUTBYTE(b)` writes `PB[PL]`; the 64th byte compresses the block of all 64 cells and leaves
`PL = 0`, any other advances `PL`; `TB` is not written. -/
def Obligations.PutbyteFillsACellOrCompresses : Prop :=
  ∀ (s : State) (b : Byte),
    (s.pl ≠ 63 → ∃ pb : Vector Byte 64, ∃ pl : Fin 64,
      exec (.putbyte b) s = .next { s with pb := pb, pl := pl } ∧ pl.val = s.pl.val + 1 ∧
      pb[s.pl] = b ∧ ∀ i : Fin 64, i ≠ s.pl → pb[i] = s.pb[i]) ∧
    (s.pl = 63 → ∃ (pb : Vector Byte 64) (d : Datapath),
      exec (.putbyte b) s = .next { s with pb := pb, pl := 0, h := compressFn s.h pb, dp := d } ∧
      d.t = 80#7 ∧ pb[63] = b ∧ ∀ i : Fin 64, i ≠ 63 → pb[i] = s.pb[i])

/-- R182, R187: in FEED, with an input byte to read, `ABSORB` puts that byte into `PB[PL]`, adds 8 to `TB` and
steps `i`; the byte that fills the block starts LOADW, any other advances `PL`. The arm is this one step (log
entry 10). -/
def Obligations.AbsorbTakesTheNextInputByte : Prop :=
  ∀ s : State, s.scratch.cmd.getLsbD 3 = true → s.scratch.opr.feeds →
    (s.scratch.i.toNat : Int) < s.scratch.opr.len →
    let b := s.mem.read (s.scratch.opr.bufbase.toNat + s.scratch.opr.off.toNat + s.scratch.i.toNat)
    ∃ t, exec .absorb s = .next t ∧ t.tb = s.tb + 8#64 ∧ t.pb[s.pl] = b ∧
      (∀ i : Fin 64, i ≠ s.pl → t.pb[i] = s.pb[i]) ∧ t.scratch.i.toNat = s.scratch.i.toNat + 1 ∧
      t = { s with
        tb := t.tb, pb := t.pb, pl := t.pl, phase := if s.pl = 63 then .loadw else s.phase,
        scratch := { s.scratch with
          i := t.scratch.i, resume := if s.pl = 63 then .feed else s.scratch.resume } } ∧
      t.pl.val = if s.pl = 63 then 63 else s.pl.val + 1

/-- 20_memory.md R62: where `MemRead` is not defined, `ABSORB` has no byte to take and the core stops; the
fault is the model's (log entry 15). -/
def Obligations.AbsorbWithoutAnInputByteStops : Prop :=
  ∀ s : State, (s.scratch.cmd.getLsbD 3 = false ∨ s.scratch.opr.off + s.scratch.i.toNat < 0 ∨
      s.scratch.opr.size ≤ s.scratch.opr.off + s.scratch.i.toNat) →
    exec .absorb s = .fault .noInputByte

/-- R183, R187: a step of `PAD` puts the next padding byte into `PB[PL]` (0x80, then zeros while `PL != 56`,
then the length bytes, most significant first), `TB` unchanged; the byte that fills the block starts LOADW. The arm is this one step (log entry 10). -/
def Obligations.PadPutsTheNextPaddingByte : Prop :=
  ∀ (s : State), s.scratch.pad ≠ .done →
    let b : Byte := match s.scratch.pad with
      | .start => 0x80#8
      | .zeros => if s.pl = 56 then s.tb.extractLsb' 56 8 else 0#8
      | .length k => s.tb.extractLsb' (56 - 8 * k.val) 8
      | .done => 0#8
    let next : PadStep := match s.scratch.pad with
      | .start => .zeros
      | .zeros => if s.pl = 56 then .length 1 else .zeros
      | .length k => if k = 7 then .done else .length (k + 1)
      | .done => .done
    ∃ (pb : Vector Byte 64) (pl : Fin 64),
      exec .pad s = .next { s with
        pb := pb, pl := pl, phase := if s.pl = 63 then .loadw else s.phase,
        scratch := { s.scratch with
          pad := next, resume := if s.pl = 63 then .pad else s.scratch.resume } } ∧
      pb[s.pl] = b ∧ (∀ i : Fin 64, i ≠ s.pl → pb[i] = s.pb[i]) ∧
      pl.val = if s.pl = 63 then 63 else s.pl.val + 1

/-- R185: `SERIALISE` copies `H` into `DOUT` and writes nothing else. -/
def Obligations.SerialiseCopiesHashToDout : Prop :=
  ∀ s : State, exec .serialise s = .next { s with dout := s.h }

/-- R186: `REINIT` writes the five constants, `PL = 0`, `TB = 0` and nothing else. -/
def Obligations.ReinitWritesTheConstants : Prop :=
  ∀ s : State, exec .reinit s = .next { s with
    h := #v[0x67452301#32, 0xEFCDAB89#32, 0x98BADCFE#32, 0x10325476#32, 0xC3D2E1F0#32], pl := 0, tb := 0#64 }

/-- R182: `n` calls of `ABSORB` add `8n` to `TB` modulo 2^64 and `n` to `PL` modulo 64. -/
def Obligations.AbsorbingCountsBitsAndBytes : Prop :=
  ∀ (s : State) (bs : List Byte),
    (s.absorbAll bs).tb.toNat = (s.tb.toNat + 8 * bs.length) % 2 ^ 64 ∧
    (s.absorbAll bs).pl.val = (s.pl.val + bs.length) % 64

/-- R184: the loop of `PAD` puts `0x80`, `(55 - p) mod 64` zeros and the eight length bytes, and ends with
`PL = 0` and `TB` unchanged. -/
def Obligations.PadIsItsClosedForm : Prop :=
  ∀ s : State, s.padAll = s.putAll (padBytes s.pl.val s.tb) ∧ s.padAll.pl = 0 ∧ s.padAll.tb = s.tb

/-! ### The whole machine -/

/-- The invariant holds right after reset. -/
def Obligations.InvariantHoldsAtReset : Prop := State.reset.Inv

/-- The invariant (10_state.md R23, R26, R30, R31) is kept by every step, whatever the host does. -/
def Obligations.EveryStepKeepsTheInvariant : Prop :=
  ∀ s t : State, s.Inv → step s = .next t → t.Inv

/-- R72, R99, 60_exceptions.md R200: in a state of the invariant no step is stuck; the unreached sequencer
words are not reached and every access the checks admit is defined. -/
def Obligations.NoStepIsStuck : Prop :=
  ∀ (s : State) (f : Fault), s.Inv → step s ≠ .fault f

/-- R11, R120, R187, R250: a `CMD` write followed by the steps of the sequencer ends in exactly the state the
atomic command ends in, after `1 + stepCount` steps. -/
def Obligations.SequencerRefinesTheAtomicCommand : Prop :=
  ∀ (s t : State) (w : Word), s.busy = false → s.host = [] →
    exec (decodeCmd w) s = .next t →
    Sys2Proof.core.run (1 + stepCount w s) { s with host := [.write { off := 0, width := 4 } w] } = .next t
end

