-- ==== Sys2Proof/Laws/State.lean ====
section
/-! SUPPORT. One lemma per field per update of the state, so that no proof unfolds a record update. -/

namespace Sys2Proof.Machine

/-! ### `complete` -/

@[simp] theorem State.complete_h (s : State) (e : ErrCode) : (s.complete e).h = s.h := rfl
@[simp] theorem State.complete_pb (s : State) (e : ErrCode) : (s.complete e).pb = s.pb := rfl
@[simp] theorem State.complete_pl (s : State) (e : ErrCode) : (s.complete e).pl = s.pl := rfl
@[simp] theorem State.complete_tb (s : State) (e : ErrCode) : (s.complete e).tb = s.tb := rfl
@[simp] theorem State.complete_fin (s : State) (e : ErrCode) : (s.complete e).fin = s.fin := rfl
@[simp] theorem State.complete_dp (s : State) (e : ErrCode) : (s.complete e).dp = s.dp := rfl
@[simp] theorem State.complete_phase (s : State) (e : ErrCode) : (s.complete e).phase = .idle := rfl
@[simp] theorem State.complete_scratch (s : State) (e : ErrCode) : (s.complete e).scratch = Config.freeScratch s.draws := rfl
@[simp] theorem State.complete_busy (s : State) (e : ErrCode) : (s.complete e).busy = false := rfl
@[simp] theorem State.complete_dout (s : State) (e : ErrCode) : (s.complete e).dout = s.dout := rfl
@[simp] theorem State.complete_err (s : State) (e : ErrCode) : (s.complete e).err = e := rfl
@[simp] theorem State.complete_result (s : State) (e : ErrCode) : (s.complete e).result = s.result := rfl
@[simp] theorem State.complete_opr (s : State) (e : ErrCode) : (s.complete e).opr = s.opr := rfl
@[simp] theorem State.complete_mem (s : State) (e : ErrCode) : (s.complete e).mem = s.mem := rfl
@[simp] theorem State.complete_host (s : State) (e : ErrCode) : (s.complete e).host = s.host := rfl
@[simp] theorem State.complete_rdata (s : State) (e : ErrCode) : (s.complete e).rdata = s.rdata := rfl
@[simp] theorem State.complete_rbyte (s : State) (e : ErrCode) : (s.complete e).rbyte = s.rbyte := rfl
@[simp] theorem State.complete_draws (s : State) (e : ErrCode) : (s.complete e).draws = s.draws + 1 := rfl

/-! ### `raise` -/

@[simp] theorem State.raise_h (s : State) (e : ErrCode) : (s.raise e).h = s.h := rfl
@[simp] theorem State.raise_pb (s : State) (e : ErrCode) : (s.raise e).pb = s.pb := rfl
@[simp] theorem State.raise_pl (s : State) (e : ErrCode) : (s.raise e).pl = s.pl := rfl
@[simp] theorem State.raise_tb (s : State) (e : ErrCode) : (s.raise e).tb = s.tb := rfl
@[simp] theorem State.raise_fin (s : State) (e : ErrCode) : (s.raise e).fin = s.fin := rfl
@[simp] theorem State.raise_dp (s : State) (e : ErrCode) : (s.raise e).dp = s.dp := rfl
@[simp] theorem State.raise_phase (s : State) (e : ErrCode) : (s.raise e).phase = .idle := rfl
@[simp] theorem State.raise_scratch (s : State) (e : ErrCode) : (s.raise e).scratch = Config.freeScratch s.draws := rfl
@[simp] theorem State.raise_busy (s : State) (e : ErrCode) : (s.raise e).busy = false := rfl
@[simp] theorem State.raise_dout (s : State) (e : ErrCode) : (s.raise e).dout = s.dout := rfl
@[simp] theorem State.raise_err (s : State) (e : ErrCode) : (s.raise e).err = e := rfl
@[simp] theorem State.raise_result (s : State) (e : ErrCode) : (s.raise e).result = s.result := rfl
@[simp] theorem State.raise_opr (s : State) (e : ErrCode) : (s.raise e).opr = s.opr := rfl
@[simp] theorem State.raise_mem (s : State) (e : ErrCode) : (s.raise e).mem = s.mem := rfl
@[simp] theorem State.raise_host (s : State) (e : ErrCode) : (s.raise e).host = s.host := rfl
@[simp] theorem State.raise_rdata (s : State) (e : ErrCode) : (s.raise e).rdata = s.rdata := rfl
@[simp] theorem State.raise_rbyte (s : State) (e : ErrCode) : (s.raise e).rbyte = s.rbyte := rfl
@[simp] theorem State.raise_draws (s : State) (e : ErrCode) : (s.raise e).draws = s.draws + 1 := rfl

/-! ### `serialise` -/

@[simp] theorem State.serialise_h (s : State) : s.serialise.h = s.h := rfl
@[simp] theorem State.serialise_pb (s : State) : s.serialise.pb = s.pb := rfl
@[simp] theorem State.serialise_pl (s : State) : s.serialise.pl = s.pl := rfl
@[simp] theorem State.serialise_tb (s : State) : s.serialise.tb = s.tb := rfl
@[simp] theorem State.serialise_fin (s : State) : s.serialise.fin = s.fin := rfl
@[simp] theorem State.serialise_dp (s : State) : s.serialise.dp = s.dp := rfl
@[simp] theorem State.serialise_phase (s : State) : s.serialise.phase = s.phase := rfl
@[simp] theorem State.serialise_scratch (s : State) : s.serialise.scratch = s.scratch := rfl
@[simp] theorem State.serialise_busy (s : State) : s.serialise.busy = s.busy := rfl
@[simp] theorem State.serialise_dout (s : State) : s.serialise.dout = s.h := rfl
@[simp] theorem State.serialise_err (s : State) : s.serialise.err = s.err := rfl
@[simp] theorem State.serialise_result (s : State) : s.serialise.result = s.result := rfl
@[simp] theorem State.serialise_opr (s : State) : s.serialise.opr = s.opr := rfl
@[simp] theorem State.serialise_mem (s : State) : s.serialise.mem = s.mem := rfl
@[simp] theorem State.serialise_host (s : State) : s.serialise.host = s.host := rfl
@[simp] theorem State.serialise_rdata (s : State) : s.serialise.rdata = s.rdata := rfl
@[simp] theorem State.serialise_rbyte (s : State) : s.serialise.rbyte = s.rbyte := rfl
@[simp] theorem State.serialise_draws (s : State) : s.serialise.draws = s.draws := rfl

/-! ### `reinit` -/

@[simp] theorem State.reinit_h (s : State) : s.reinit.h = ivWords := rfl
@[simp] theorem State.reinit_pb (s : State) : s.reinit.pb = s.pb := rfl
@[simp] theorem State.reinit_pl (s : State) : s.reinit.pl = 0 := rfl
@[simp] theorem State.reinit_tb (s : State) : s.reinit.tb = 0#64 := rfl
@[simp] theorem State.reinit_fin (s : State) : s.reinit.fin = s.fin := rfl
@[simp] theorem State.reinit_dp (s : State) : s.reinit.dp = s.dp := rfl
@[simp] theorem State.reinit_phase (s : State) : s.reinit.phase = s.phase := rfl
@[simp] theorem State.reinit_scratch (s : State) : s.reinit.scratch = s.scratch := rfl
@[simp] theorem State.reinit_busy (s : State) : s.reinit.busy = s.busy := rfl
@[simp] theorem State.reinit_dout (s : State) : s.reinit.dout = s.dout := rfl
@[simp] theorem State.reinit_err (s : State) : s.reinit.err = s.err := rfl
@[simp] theorem State.reinit_result (s : State) : s.reinit.result = s.result := rfl
@[simp] theorem State.reinit_opr (s : State) : s.reinit.opr = s.opr := rfl
@[simp] theorem State.reinit_mem (s : State) : s.reinit.mem = s.mem := rfl
@[simp] theorem State.reinit_host (s : State) : s.reinit.host = s.host := rfl
@[simp] theorem State.reinit_rdata (s : State) : s.reinit.rdata = s.rdata := rfl
@[simp] theorem State.reinit_rbyte (s : State) : s.reinit.rbyte = s.rbyte := rfl
@[simp] theorem State.reinit_draws (s : State) : s.reinit.draws = s.draws := rfl

/-! ### `putCell` -/

@[simp] theorem State.putCell_h (s : State) (b : Byte) : (s.putCell b).h = s.h := rfl
@[simp] theorem State.putCell_pb (s : State) (b : Byte) : (s.putCell b).pb = s.pb.set s.pl.val b := rfl
@[simp] theorem State.putCell_pl (s : State) (b : Byte) : (s.putCell b).pl = s.pl := rfl
@[simp] theorem State.putCell_tb (s : State) (b : Byte) : (s.putCell b).tb = s.tb := rfl
@[simp] theorem State.putCell_fin (s : State) (b : Byte) : (s.putCell b).fin = s.fin := rfl
@[simp] theorem State.putCell_dp (s : State) (b : Byte) : (s.putCell b).dp = s.dp := rfl
@[simp] theorem State.putCell_phase (s : State) (b : Byte) : (s.putCell b).phase = s.phase := rfl
@[simp] theorem State.putCell_scratch (s : State) (b : Byte) : (s.putCell b).scratch = s.scratch := rfl
@[simp] theorem State.putCell_busy (s : State) (b : Byte) : (s.putCell b).busy = s.busy := rfl
@[simp] theorem State.putCell_dout (s : State) (b : Byte) : (s.putCell b).dout = s.dout := rfl
@[simp] theorem State.putCell_err (s : State) (b : Byte) : (s.putCell b).err = s.err := rfl
@[simp] theorem State.putCell_result (s : State) (b : Byte) : (s.putCell b).result = s.result := rfl
@[simp] theorem State.putCell_opr (s : State) (b : Byte) : (s.putCell b).opr = s.opr := rfl
@[simp] theorem State.putCell_mem (s : State) (b : Byte) : (s.putCell b).mem = s.mem := rfl
@[simp] theorem State.putCell_host (s : State) (b : Byte) : (s.putCell b).host = s.host := rfl
@[simp] theorem State.putCell_rdata (s : State) (b : Byte) : (s.putCell b).rdata = s.rdata := rfl
@[simp] theorem State.putCell_rbyte (s : State) (b : Byte) : (s.putCell b).rbyte = s.rbyte := rfl
@[simp] theorem State.putCell_draws (s : State) (b : Byte) : (s.putCell b).draws = s.draws := rfl

/-! ### `loadWords` -/

@[simp] theorem State.loadWords_h (s : State) : s.loadWords.h = s.h := rfl
@[simp] theorem State.loadWords_pb (s : State) : s.loadWords.pb = s.pb := rfl
@[simp] theorem State.loadWords_pl (s : State) : s.loadWords.pl = s.pl := rfl
@[simp] theorem State.loadWords_tb (s : State) : s.loadWords.tb = s.tb := rfl
@[simp] theorem State.loadWords_fin (s : State) : s.loadWords.fin = s.fin := rfl
@[simp] theorem State.loadWords_dp (s : State) : s.loadWords.dp = s.dp.load s.h s.pb := rfl
@[simp] theorem State.loadWords_phase (s : State) : s.loadWords.phase = s.phase := rfl
@[simp] theorem State.loadWords_scratch (s : State) : s.loadWords.scratch = s.scratch := rfl
@[simp] theorem State.loadWords_busy (s : State) : s.loadWords.busy = s.busy := rfl
@[simp] theorem State.loadWords_dout (s : State) : s.loadWords.dout = s.dout := rfl
@[simp] theorem State.loadWords_err (s : State) : s.loadWords.err = s.err := rfl
@[simp] theorem State.loadWords_result (s : State) : s.loadWords.result = s.result := rfl
@[simp] theorem State.loadWords_opr (s : State) : s.loadWords.opr = s.opr := rfl
@[simp] theorem State.loadWords_mem (s : State) : s.loadWords.mem = s.mem := rfl
@[simp] theorem State.loadWords_host (s : State) : s.loadWords.host = s.host := rfl
@[simp] theorem State.loadWords_rdata (s : State) : s.loadWords.rdata = s.rdata := rfl
@[simp] theorem State.loadWords_rbyte (s : State) : s.loadWords.rbyte = s.rbyte := rfl
@[simp] theorem State.loadWords_draws (s : State) : s.loadWords.draws = s.draws := rfl

/-! ### `addBack` -/

@[simp] theorem State.addBack_h (s : State) : s.addBack.h = addWords s.h s.dp.v := rfl
@[simp] theorem State.addBack_pb (s : State) : s.addBack.pb = s.pb := rfl
@[simp] theorem State.addBack_pl (s : State) : s.addBack.pl = s.pl := rfl
@[simp] theorem State.addBack_tb (s : State) : s.addBack.tb = s.tb := rfl
@[simp] theorem State.addBack_fin (s : State) : s.addBack.fin = s.fin := rfl
@[simp] theorem State.addBack_dp (s : State) : s.addBack.dp = s.dp := rfl
@[simp] theorem State.addBack_phase (s : State) : s.addBack.phase = s.phase := rfl
@[simp] theorem State.addBack_scratch (s : State) : s.addBack.scratch = s.scratch := rfl
@[simp] theorem State.addBack_busy (s : State) : s.addBack.busy = s.busy := rfl
@[simp] theorem State.addBack_dout (s : State) : s.addBack.dout = s.dout := rfl
@[simp] theorem State.addBack_err (s : State) : s.addBack.err = s.err := rfl
@[simp] theorem State.addBack_result (s : State) : s.addBack.result = s.result := rfl
@[simp] theorem State.addBack_opr (s : State) : s.addBack.opr = s.opr := rfl
@[simp] theorem State.addBack_mem (s : State) : s.addBack.mem = s.mem := rfl
@[simp] theorem State.addBack_host (s : State) : s.addBack.host = s.host := rfl
@[simp] theorem State.addBack_rdata (s : State) : s.addBack.rdata = s.rdata := rfl
@[simp] theorem State.addBack_rbyte (s : State) : s.addBack.rbyte = s.rbyte := rfl
@[simp] theorem State.addBack_draws (s : State) : s.addBack.draws = s.draws := rfl

/-! ### `compress` -/

@[simp] theorem State.compress_h (s : State) :
    s.compress.h = addWords s.h (Datapath.turns Config.nRounds (s.dp.load s.h s.pb)).v := by
  simp only [State.compress, State.addBack]
@[simp] theorem State.compress_pb (s : State) : s.compress.pb = s.pb := rfl
@[simp] theorem State.compress_pl (s : State) : s.compress.pl = s.pl := rfl
@[simp] theorem State.compress_tb (s : State) : s.compress.tb = s.tb := rfl
@[simp] theorem State.compress_fin (s : State) : s.compress.fin = s.fin := rfl
@[simp] theorem State.compress_dp (s : State) : s.compress.dp = Datapath.turns Config.nRounds (s.dp.load s.h s.pb) := by
  simp only [State.compress, State.addBack]
@[simp] theorem State.compress_phase (s : State) : s.compress.phase = s.phase := rfl
@[simp] theorem State.compress_scratch (s : State) : s.compress.scratch = s.scratch := rfl
@[simp] theorem State.compress_busy (s : State) : s.compress.busy = s.busy := rfl
@[simp] theorem State.compress_dout (s : State) : s.compress.dout = s.dout := rfl
@[simp] theorem State.compress_err (s : State) : s.compress.err = s.err := rfl
@[simp] theorem State.compress_result (s : State) : s.compress.result = s.result := rfl
@[simp] theorem State.compress_opr (s : State) : s.compress.opr = s.opr := rfl
@[simp] theorem State.compress_mem (s : State) : s.compress.mem = s.mem := rfl
@[simp] theorem State.compress_host (s : State) : s.compress.host = s.host := rfl
@[simp] theorem State.compress_rdata (s : State) : s.compress.rdata = s.rdata := rfl
@[simp] theorem State.compress_rbyte (s : State) : s.compress.rbyte = s.rbyte := rfl
@[simp] theorem State.compress_draws (s : State) : s.compress.draws = s.draws := rfl

/-! ### `acceptCommand` -/

@[simp] theorem State.acceptCommand_h (s : State) (w : Word) : (s.acceptCommand w).h = s.h := rfl
@[simp] theorem State.acceptCommand_pb (s : State) (w : Word) : (s.acceptCommand w).pb = s.pb := rfl
@[simp] theorem State.acceptCommand_pl (s : State) (w : Word) : (s.acceptCommand w).pl = s.pl := rfl
@[simp] theorem State.acceptCommand_tb (s : State) (w : Word) : (s.acceptCommand w).tb = s.tb := rfl
@[simp] theorem State.acceptCommand_fin (s : State) (w : Word) : (s.acceptCommand w).fin = s.fin := rfl
@[simp] theorem State.acceptCommand_dp (s : State) (w : Word) : (s.acceptCommand w).dp = s.dp := rfl
@[simp] theorem State.acceptCommand_phase (s : State) (w : Word) : (s.acceptCommand w).phase = .check := rfl
@[simp] theorem State.acceptCommand_scratch (s : State) (w : Word) : (s.acceptCommand w).scratch = { s.scratch with cmd := w, opr := s.opr } := rfl
@[simp] theorem State.acceptCommand_busy (s : State) (w : Word) : (s.acceptCommand w).busy = true := rfl
@[simp] theorem State.acceptCommand_dout (s : State) (w : Word) : (s.acceptCommand w).dout = s.dout := rfl
@[simp] theorem State.acceptCommand_err (s : State) (w : Word) : (s.acceptCommand w).err = s.err := rfl
@[simp] theorem State.acceptCommand_result (s : State) (w : Word) : (s.acceptCommand w).result = s.result := rfl
@[simp] theorem State.acceptCommand_opr (s : State) (w : Word) : (s.acceptCommand w).opr = s.opr := rfl
@[simp] theorem State.acceptCommand_mem (s : State) (w : Word) : (s.acceptCommand w).mem = s.mem := rfl
@[simp] theorem State.acceptCommand_host (s : State) (w : Word) : (s.acceptCommand w).host = s.host := rfl
@[simp] theorem State.acceptCommand_rdata (s : State) (w : Word) : (s.acceptCommand w).rdata = s.rdata := rfl
@[simp] theorem State.acceptCommand_rbyte (s : State) (w : Word) : (s.acceptCommand w).rbyte = s.rbyte := rfl
@[simp] theorem State.acceptCommand_draws (s : State) (w : Word) : (s.acceptCommand w).draws = s.draws := rfl

/-! ### The datapath -/

@[simp] theorem Datapath.load_v (h : Vector Word 5) (pb : Vector Byte 64) (d : Datapath) : (d.load h pb).v = h := rfl
@[simp] theorem Datapath.load_t (h : Vector Word 5) (pb : Vector Byte 64) (d : Datapath) : (d.load h pb).t = 0#7 := rfl
@[simp] theorem Datapath.sched_v (t : Nat) (d : Datapath) : (d.sched t).v = d.v := rfl
@[simp] theorem Datapath.sched_t (t : Nat) (d : Datapath) : (d.sched t).t = d.t := rfl
@[simp] theorem Datapath.round_v (f : Word → Word → Word → Word) (k : Word) (t : BitVec 7) (d : Datapath) :
    (d.round f k t).v = roundWords f k (wordAt d.w t.toNat) d.v := rfl
@[simp] theorem Datapath.round_w (f : Word → Word → Word → Word) (k : Word) (t : BitVec 7) (d : Datapath) :
    (d.round f k t).w = d.w := rfl
@[simp] theorem Datapath.round_t (f : Word → Word → Word → Word) (k : Word) (t : BitVec 7) (d : Datapath) :
    (d.round f k t).t = t + 1#7 := rfl

end Sys2Proof.Machine
end

