-- ==== Sys2Proof/Laws/Buffering.lean ====
section
/-! SUPPORT. What `PUTBYTE`, `ABSORB` and `PAD` do, said once (spec/42_buffering_padding.md R181 to R183). -/

namespace Sys2Proof.Machine

/-! ### `PUTBYTE` -/

/-- R181, a byte that does not fill the block. -/
theorem State.putByte_of_ne {s : State} {b : Byte} (h : s.pl ≠ 63) :
    s.putByte b = { s.putCell b with pl := s.pl + 1 } := if_neg h

/-- R181, the byte that fills the block. -/
theorem State.putByte_of_eq {s : State} {b : Byte} (h : s.pl = 63) :
    s.putByte b = { (s.putCell b).compress with pl := 0 } := if_pos h

/-- `PL` counts modulo 64 (R165 e). -/
theorem State.putByte_pl (s : State) (b : Byte) : (s.putByte b).pl = s.pl + 1 := by
  by_cases h : s.pl = 63
  · rw [State.putByte_of_eq h, h]; rfl
  · rw [State.putByte_of_ne h]

theorem State.putByte_pl_val (s : State) (b : Byte) : (s.putByte b).pl.val = (s.pl.val + 1) % 64 := by
  rw [State.putByte_pl]; rfl

@[simp] theorem State.putByte_tb (s : State) (b : Byte) : (s.putByte b).tb = s.tb := by
  unfold State.putByte; split <;> rfl

@[simp] theorem State.putByte_fin (s : State) (b : Byte) : (s.putByte b).fin = s.fin := by
  unfold State.putByte; split <;> rfl

@[simp] theorem State.putByte_phase (s : State) (b : Byte) : (s.putByte b).phase = s.phase := by
  unfold State.putByte; split <;> rfl

@[simp] theorem State.putByte_scratch (s : State) (b : Byte) : (s.putByte b).scratch = s.scratch := by
  unfold State.putByte; split <;> rfl

@[simp] theorem State.putByte_busy (s : State) (b : Byte) : (s.putByte b).busy = s.busy := by
  unfold State.putByte; split <;> rfl

@[simp] theorem State.putByte_dout (s : State) (b : Byte) : (s.putByte b).dout = s.dout := by
  unfold State.putByte; split <;> rfl

@[simp] theorem State.putByte_err (s : State) (b : Byte) : (s.putByte b).err = s.err := by
  unfold State.putByte; split <;> rfl

@[simp] theorem State.putByte_result (s : State) (b : Byte) : (s.putByte b).result = s.result := by
  unfold State.putByte; split <;> rfl

@[simp] theorem State.putByte_opr (s : State) (b : Byte) : (s.putByte b).opr = s.opr := by
  unfold State.putByte; split <;> rfl

@[simp] theorem State.putByte_mem (s : State) (b : Byte) : (s.putByte b).mem = s.mem := by
  unfold State.putByte; split <;> rfl

@[simp] theorem State.putByte_host (s : State) (b : Byte) : (s.putByte b).host = s.host := by
  unfold State.putByte; split <;> rfl

@[simp] theorem State.putByte_rdata (s : State) (b : Byte) : (s.putByte b).rdata = s.rdata := by
  unfold State.putByte; split <;> rfl

@[simp] theorem State.putByte_rbyte (s : State) (b : Byte) : (s.putByte b).rbyte = s.rbyte := by
  unfold State.putByte; split <;> rfl

@[simp] theorem State.putByte_draws (s : State) (b : Byte) : (s.putByte b).draws = s.draws := by
  unfold State.putByte; split <;> rfl

/-! ### `ABSORB` -/

@[simp] theorem State.absorb_tb (s : State) (b : Byte) : (s.absorb b).tb = s.tb + 8#64 := State.putByte_tb _ b

theorem State.absorb_pl (s : State) (b : Byte) : (s.absorb b).pl = s.pl + 1 := State.putByte_pl _ b

@[simp] theorem State.absorb_fin (s : State) (b : Byte) : (s.absorb b).fin = s.fin := State.putByte_fin _ b

@[simp] theorem State.absorb_phase (s : State) (b : Byte) : (s.absorb b).phase = s.phase := State.putByte_phase _ b

@[simp] theorem State.absorb_scratch (s : State) (b : Byte) : (s.absorb b).scratch = s.scratch := State.putByte_scratch _ b

@[simp] theorem State.absorb_busy (s : State) (b : Byte) : (s.absorb b).busy = s.busy := State.putByte_busy _ b

@[simp] theorem State.absorb_dout (s : State) (b : Byte) : (s.absorb b).dout = s.dout := State.putByte_dout _ b

@[simp] theorem State.absorb_err (s : State) (b : Byte) : (s.absorb b).err = s.err := State.putByte_err _ b

@[simp] theorem State.absorb_result (s : State) (b : Byte) : (s.absorb b).result = s.result := State.putByte_result _ b

@[simp] theorem State.absorb_opr (s : State) (b : Byte) : (s.absorb b).opr = s.opr := State.putByte_opr _ b

@[simp] theorem State.absorb_mem (s : State) (b : Byte) : (s.absorb b).mem = s.mem := State.putByte_mem _ b

@[simp] theorem State.absorb_host (s : State) (b : Byte) : (s.absorb b).host = s.host := State.putByte_host _ b

@[simp] theorem State.absorb_rdata (s : State) (b : Byte) : (s.absorb b).rdata = s.rdata := State.putByte_rdata _ b

@[simp] theorem State.absorb_rbyte (s : State) (b : Byte) : (s.absorb b).rbyte = s.rbyte := State.putByte_rbyte _ b

@[simp] theorem State.absorb_draws (s : State) (b : Byte) : (s.absorb b).draws = s.draws := State.putByte_draws _ b

/-! ### Sequences of bytes -/

/-- What every byte leaves alone, a sequence of bytes leaves alone. -/
theorem foldl_frame {α β : Type} (f : State → α) (g : State → β → State) (hg : ∀ s b, f (g s b) = f s)
    (bs : List β) : ∀ s, f (bs.foldl g s) = f s := by
  induction bs with
  | nil => exact fun _ => rfl
  | cons b bs ih => exact fun s => (ih _).trans (hg s b)

theorem State.absorbAll_nil (s : State) : s.absorbAll [] = s := rfl

theorem State.absorbAll_cons (s : State) (b : Byte) (bs : List Byte) :
    s.absorbAll (b :: bs) = (s.absorb b).absorbAll bs := rfl

/-- R128: `UPDATE` is a left fold of `ABSORB`. -/
theorem State.absorbAll_append (s : State) (bs cs : List Byte) :
    s.absorbAll (bs ++ cs) = (s.absorbAll bs).absorbAll cs := List.foldl_append

theorem State.putAll_nil (s : State) : s.putAll [] = s := rfl

theorem State.putAll_cons (s : State) (b : Byte) (bs : List Byte) :
    s.putAll (b :: bs) = (s.putByte b).putAll bs := rfl

theorem State.putAll_append (s : State) (bs cs : List Byte) :
    s.putAll (bs ++ cs) = (s.putAll bs).putAll cs := List.foldl_append

@[simp] theorem State.putAll_tb (s : State) (bs : List Byte) : (s.putAll bs).tb = s.tb :=
  foldl_frame State.tb _ State.putByte_tb bs s

@[simp] theorem State.absorbAll_fin (s : State) (bs : List Byte) : (s.absorbAll bs).fin = s.fin :=
  foldl_frame State.fin _ State.absorb_fin bs s

@[simp] theorem State.putAll_fin (s : State) (bs : List Byte) : (s.putAll bs).fin = s.fin :=
  foldl_frame State.fin _ State.putByte_fin bs s

@[simp] theorem State.absorbAll_phase (s : State) (bs : List Byte) : (s.absorbAll bs).phase = s.phase :=
  foldl_frame State.phase _ State.absorb_phase bs s

@[simp] theorem State.putAll_phase (s : State) (bs : List Byte) : (s.putAll bs).phase = s.phase :=
  foldl_frame State.phase _ State.putByte_phase bs s

@[simp] theorem State.absorbAll_scratch (s : State) (bs : List Byte) : (s.absorbAll bs).scratch = s.scratch :=
  foldl_frame State.scratch _ State.absorb_scratch bs s

@[simp] theorem State.putAll_scratch (s : State) (bs : List Byte) : (s.putAll bs).scratch = s.scratch :=
  foldl_frame State.scratch _ State.putByte_scratch bs s

@[simp] theorem State.absorbAll_busy (s : State) (bs : List Byte) : (s.absorbAll bs).busy = s.busy :=
  foldl_frame State.busy _ State.absorb_busy bs s

@[simp] theorem State.putAll_busy (s : State) (bs : List Byte) : (s.putAll bs).busy = s.busy :=
  foldl_frame State.busy _ State.putByte_busy bs s

@[simp] theorem State.absorbAll_dout (s : State) (bs : List Byte) : (s.absorbAll bs).dout = s.dout :=
  foldl_frame State.dout _ State.absorb_dout bs s

@[simp] theorem State.putAll_dout (s : State) (bs : List Byte) : (s.putAll bs).dout = s.dout :=
  foldl_frame State.dout _ State.putByte_dout bs s

@[simp] theorem State.absorbAll_err (s : State) (bs : List Byte) : (s.absorbAll bs).err = s.err :=
  foldl_frame State.err _ State.absorb_err bs s

@[simp] theorem State.putAll_err (s : State) (bs : List Byte) : (s.putAll bs).err = s.err :=
  foldl_frame State.err _ State.putByte_err bs s

@[simp] theorem State.absorbAll_result (s : State) (bs : List Byte) : (s.absorbAll bs).result = s.result :=
  foldl_frame State.result _ State.absorb_result bs s

@[simp] theorem State.putAll_result (s : State) (bs : List Byte) : (s.putAll bs).result = s.result :=
  foldl_frame State.result _ State.putByte_result bs s

@[simp] theorem State.absorbAll_opr (s : State) (bs : List Byte) : (s.absorbAll bs).opr = s.opr :=
  foldl_frame State.opr _ State.absorb_opr bs s

@[simp] theorem State.putAll_opr (s : State) (bs : List Byte) : (s.putAll bs).opr = s.opr :=
  foldl_frame State.opr _ State.putByte_opr bs s

@[simp] theorem State.absorbAll_mem (s : State) (bs : List Byte) : (s.absorbAll bs).mem = s.mem :=
  foldl_frame State.mem _ State.absorb_mem bs s

@[simp] theorem State.putAll_mem (s : State) (bs : List Byte) : (s.putAll bs).mem = s.mem :=
  foldl_frame State.mem _ State.putByte_mem bs s

@[simp] theorem State.absorbAll_host (s : State) (bs : List Byte) : (s.absorbAll bs).host = s.host :=
  foldl_frame State.host _ State.absorb_host bs s

@[simp] theorem State.putAll_host (s : State) (bs : List Byte) : (s.putAll bs).host = s.host :=
  foldl_frame State.host _ State.putByte_host bs s

@[simp] theorem State.absorbAll_rdata (s : State) (bs : List Byte) : (s.absorbAll bs).rdata = s.rdata :=
  foldl_frame State.rdata _ State.absorb_rdata bs s

@[simp] theorem State.putAll_rdata (s : State) (bs : List Byte) : (s.putAll bs).rdata = s.rdata :=
  foldl_frame State.rdata _ State.putByte_rdata bs s

@[simp] theorem State.absorbAll_rbyte (s : State) (bs : List Byte) : (s.absorbAll bs).rbyte = s.rbyte :=
  foldl_frame State.rbyte _ State.absorb_rbyte bs s

@[simp] theorem State.putAll_rbyte (s : State) (bs : List Byte) : (s.putAll bs).rbyte = s.rbyte :=
  foldl_frame State.rbyte _ State.putByte_rbyte bs s

@[simp] theorem State.absorbAll_draws (s : State) (bs : List Byte) : (s.absorbAll bs).draws = s.draws :=
  foldl_frame State.draws _ State.absorb_draws bs s

@[simp] theorem State.putAll_draws (s : State) (bs : List Byte) : (s.putAll bs).draws = s.draws :=
  foldl_frame State.draws _ State.putByte_draws bs s

/-! ### `PAD` -/

/-- What every padding byte leaves alone, the zero loop leaves alone. -/
theorem padZeros_frame {α : Type} (f : State → α) (hf : ∀ s b, f (State.putByte s b) = f s) (n : Nat) :
    ∀ s, f (State.padZeros n s) = f s := by
  induction n with
  | zero => exact fun _ => rfl
  | succ n ih =>
    intro s
    unfold State.padZeros
    split
    · rfl
    · exact (ih _).trans (hf s _)

/-- What every padding byte leaves alone, `PAD` leaves alone. -/
theorem padAll_frame {α : Type} (f : State → α) (hf : ∀ s b, f (State.putByte s b) = f s) (s : State) :
    f s.padAll = f s :=
  (foldl_frame f _ hf _ _).trans ((padZeros_frame f hf 64 _).trans (hf s _))

@[simp] theorem State.padAll_fin (s : State) : s.padAll.fin = s.fin := padAll_frame State.fin State.putByte_fin s

@[simp] theorem State.padAll_phase (s : State) : s.padAll.phase = s.phase := padAll_frame State.phase State.putByte_phase s

@[simp] theorem State.padAll_scratch (s : State) : s.padAll.scratch = s.scratch := padAll_frame State.scratch State.putByte_scratch s

@[simp] theorem State.padAll_busy (s : State) : s.padAll.busy = s.busy := padAll_frame State.busy State.putByte_busy s

@[simp] theorem State.padAll_dout (s : State) : s.padAll.dout = s.dout := padAll_frame State.dout State.putByte_dout s

@[simp] theorem State.padAll_err (s : State) : s.padAll.err = s.err := padAll_frame State.err State.putByte_err s

@[simp] theorem State.padAll_result (s : State) : s.padAll.result = s.result := padAll_frame State.result State.putByte_result s

@[simp] theorem State.padAll_opr (s : State) : s.padAll.opr = s.opr := padAll_frame State.opr State.putByte_opr s

@[simp] theorem State.padAll_mem (s : State) : s.padAll.mem = s.mem := padAll_frame State.mem State.putByte_mem s

@[simp] theorem State.padAll_host (s : State) : s.padAll.host = s.host := padAll_frame State.host State.putByte_host s

@[simp] theorem State.padAll_rdata (s : State) : s.padAll.rdata = s.rdata := padAll_frame State.rdata State.putByte_rdata s

@[simp] theorem State.padAll_rbyte (s : State) : s.padAll.rbyte = s.rbyte := padAll_frame State.rbyte State.putByte_rbyte s

@[simp] theorem State.padAll_draws (s : State) : s.padAll.draws = s.draws := padAll_frame State.draws State.putByte_draws s

end Sys2Proof.Machine
end

