-- ==== Sys2Proof/Laws/Decode.lean ====
section
/-! SUPPORT. The fields of a word read back from the word they were put into (spec/30_encoding.md R91, R98). -/

namespace Sys2Proof

@[simp] theorem phaseField_seqWord (p : BitVec 3) (t : BitVec 7) : phaseField (seqWord p t) = p := by
  revert p t
  decide

@[simp] theorem tField_seqWord (p : BitVec 3) (t : BitVec 7) : tField (seqWord p t) = t := by
  revert p t
  decide

/-- The fields of a command word as numbers (R91). -/
theorem opField_toNat (w : Word) : (opField w).toNat = w.toNat % 8 := by
  simp [opField]

theorem pField_iff (w : Word) : pField w = true ↔ w.toNat / 8 % 2 = 1 := by
  simp [pField, BitVec.getLsbD, Nat.testBit, Nat.shiftRight_eq_div_pow, Nat.one_and_eq_mod_two]

theorem rsvField_eq_zero (w : Word) : rsvField w = 0#28 ↔ w.toNat < 16 := by
  have lt := w.isLt
  rw [← BitVec.toNat_inj]
  simp only [rsvField, BitVec.extractLsb'_toNat, Nat.shiftRight_eq_div_pow, BitVec.toNat_ofNat]
  omega

@[simp] theorem Machine.Phase.ofCode_code (p : Machine.Phase) : Machine.Phase.ofCode p.code = p := by
  cases p <;> rfl

end Sys2Proof
end

