-- ==== Sys2Proof/Laws/Memory.lean ====
section
/-! SUPPORT. The laws of byte memory: a read after a write, and that every memory operation keeps the
canonical form. -/

namespace Sys2Proof.Machine

/-! ### The canonical form -/

theorem Memory.wfFrom_cons {lo k : Nat} {v : Byte} {m : Memory} :
    Memory.wfFrom lo ((k, v) :: m) = true ↔
      lo ≤ k ∧ k < 2 ^ 32 ∧ v ≠ unlistedByte ∧ Memory.wfFrom (k + 1) m = true := by
  simp [Memory.wfFrom, and_assoc]

theorem Memory.wfFrom_mono {m : Memory} {lo lo' : Nat} (le : lo ≤ lo') (h : Memory.wfFrom lo' m = true) :
    Memory.wfFrom lo m = true := by
  cases m with
  | nil => rfl
  | cons c rest =>
    obtain ⟨k, v⟩ := c
    rw [Memory.wfFrom_cons] at h ⊢
    exact ⟨le.trans h.1, h.2⟩

theorem Memory.wfFrom_put {lo a : Nat} {b : Byte} {m : Memory} (le : lo ≤ a) (lt : a < 2 ^ 32)
    (h : Memory.wfFrom (a + 1) m = true) : Memory.wfFrom lo (Memory.put a b m) = true := by
  unfold Memory.put
  split
  · exact Memory.wfFrom_mono (by omega) h
  · exact Memory.wfFrom_cons.2 ⟨le, lt, ‹_›, h⟩

theorem Memory.wfFrom_write {lo a : Nat} {b : Byte} {m : Memory} (le : lo ≤ a) (lt : a < 2 ^ 32)
    (h : Memory.wfFrom lo m = true) : Memory.wfFrom lo (m.write a b) = true := by
  induction m generalizing lo with
  | nil => exact Memory.wfFrom_put le lt rfl
  | cons c rest ih =>
    obtain ⟨k, v⟩ := c
    have hc := Memory.wfFrom_cons.1 h
    unfold Memory.write
    split
    · exact Memory.wfFrom_put le lt (Memory.wfFrom_cons.2 ⟨by omega, hc.2⟩)
    · split
      · next e => exact Memory.wfFrom_put le lt (e ▸ hc.2.2.2)
      · exact Memory.wfFrom_cons.2 ⟨hc.1, hc.2.1, hc.2.2.1, ih (by omega) hc.2.2.2⟩

/-- Storing a byte inside the 32-bit space keeps the canonical form. -/
theorem Memory.wf_write {m : Memory} {a : Nat} {b : Byte} (lt : a < 2 ^ 32) (h : m.wf = true) :
    (m.write a b).wf = true := Memory.wfFrom_write (Nat.zero_le a) lt h

theorem Operands.addr_lt (o : Operands) (idx : Nat) : o.addr idx < 2 ^ 32 := Nat.mod_lt _ (by decide)

/-- Under the launch premise the address of an index inside the buffer does not wrap (20_memory.md R61). -/
theorem Operands.addr_eq {o : Operands} {idx : Nat} (lt : o.bufbase.toNat + idx < 2 ^ 32) :
    o.addr idx = o.bufbase.toNat + idx := Nat.mod_eq_of_lt lt

theorem wf_memWrite {o : Operands} {m : Memory} {idx : Nat} {b : Byte} (h : m.wf = true) :
    (memWrite o m idx b).wf = true := Memory.wf_write (o.addr_lt idx) h

/-- A sequence of stores keeps the canonical form. -/
theorem wf_foldl_memWrite {o : Operands} (idx : Nat → Nat) (b : Nat → Byte) (l : List Nat) :
    ∀ {m : Memory}, m.wf = true → (l.foldl (fun m j => memWrite o m (idx j) (b j)) m).wf = true := by
  induction l with
  | nil => exact fun h => h
  | cons x xs ih => exact fun h => ih (wf_memWrite h)

theorem wf_storeRange {o : Operands} {b : Nat → Byte} {m : Memory} (h : m.wf = true) :
    (storeRange o b m).wf = true := wf_foldl_memWrite (fun j => o.off.toNat + j) b _ h

theorem wf_storeDigest {o : Operands} {d : Vector Word 5} {m : Memory} (h : m.wf = true) :
    (storeDigest o d m).wf = true := wf_storeRange h

theorem wf_memAfterReset {s : State} (h : s.mem.wf = true) : s.memAfterReset.wf = true := by
  have w := wf_storeRange (o := s.scratch.opr) (b := Config.freeByte s.draws) h
  unfold State.memAfterReset
  generalize storeRange s.scratch.opr (Config.freeByte s.draws) s.mem = m at w ⊢
  split
  · split
    · exact w
    · exact h
  · exact h

theorem wf_reset : State.reset.mem.wf = true := rfl

/-! ### Reads after writes -/

theorem Memory.read_put_same {a : Nat} {b : Byte} {m : Memory} (h : m.read a = unlistedByte) :
    (Memory.put a b m).read a = b := by
  unfold Memory.put
  split
  · rw [h]; exact Eq.symm ‹_›
  · simp [Memory.read]

theorem Memory.read_put_other {a a' : Nat} {b : Byte} {m : Memory} (ne : a' ≠ a) :
    (Memory.put a b m).read a' = m.read a' := by
  unfold Memory.put
  split
  · rfl
  · simp [Memory.read, Ne.symm ne]

/-- An address below every listed one reads as unlisted. -/
theorem Memory.read_of_wfFrom {m : Memory} {lo a : Nat} (h : Memory.wfFrom lo m = true) (lt : a < lo) :
    m.read a = unlistedByte := by
  induction m generalizing lo with
  | nil => rfl
  | cons c rest ih =>
    obtain ⟨k, v⟩ := c
    have hc := Memory.wfFrom_cons.1 h
    have ne : k ≠ a := by omega
    simpa [Memory.read, ne] using ih hc.2.2.2 (by omega)

theorem Memory.read_write_same_from {m : Memory} {lo a : Nat} {b : Byte} (h : Memory.wfFrom lo m = true) :
    (m.write a b).read a = b := by
  induction m generalizing lo with
  | nil => exact Memory.read_put_same rfl
  | cons c rest ih =>
    obtain ⟨k, v⟩ := c
    have hc := Memory.wfFrom_cons.1 h
    unfold Memory.write
    split
    · next lt =>
      exact Memory.read_put_same
        (Memory.read_of_wfFrom (lo := k) (Memory.wfFrom_cons.2 ⟨le_rfl, hc.2⟩) lt)
    · split
      · next e => exact Memory.read_put_same (Memory.read_of_wfFrom (lo := k + 1) hc.2.2.2 (by omega))
      · next ne => simpa [Memory.read, Ne.symm ne] using ih hc.2.2.2

/-- A read after a write to the same place gives the byte written. -/
theorem Memory.read_write_same {m : Memory} {a : Nat} {b : Byte} (h : m.wf = true) :
    (m.write a b).read a = b := Memory.read_write_same_from h

/-- A write leaves every other place alone. -/
theorem Memory.read_write_other {m : Memory} {a a' : Nat} {b : Byte} (ne : a' ≠ a) :
    (m.write a b).read a' = m.read a' := by
  induction m with
  | nil => exact Memory.read_put_other ne
  | cons c rest ih =>
    obtain ⟨k, v⟩ := c
    unfold Memory.write
    split
    · exact Memory.read_put_other ne
    · split
      · next e => rw [Memory.read_put_other ne]; simp [Memory.read, ← e, Ne.symm ne]
      · by_cases hk : k = a'
        · simp [Memory.read, hk]
        · simpa [Memory.read, hk] using ih

/-- Stores change no place outside them. -/
theorem read_foldl_memWrite_other {o : Operands} (idx : Nat → Nat) (b : Nat → Byte) {a : Nat} (l : List Nat) :
    ∀ {m : Memory}, (∀ j ∈ l, a ≠ o.addr (idx j)) →
      (l.foldl (fun m j => memWrite o m (idx j) (b j)) m).read a = m.read a := by
  induction l with
  | nil => exact fun _ => rfl
  | cons x xs ih =>
    intro m ne
    rw [List.foldl_cons, ih fun j hj => ne j (List.mem_cons_of_mem _ hj)]
    exact Memory.read_write_other (ne x List.mem_cons_self)

/-- Stores at distinct places: the place of `j` reads as `j`'s byte. -/
theorem read_foldl_memWrite_at {o : Operands} (idx : Nat → Nat) (b : Nat → Byte) {j : Nat} (l : List Nat)
    (nd : l.Nodup) (dist : ∀ i ∈ l, i ≠ j → o.addr (idx j) ≠ o.addr (idx i)) (hj : j ∈ l) :
    ∀ {m : Memory}, m.wf = true →
      (l.foldl (fun m j => memWrite o m (idx j) (b j)) m).read (o.addr (idx j)) = b j := by
  induction l with
  | nil => cases hj
  | cons x xs ih =>
    intro m h
    rw [List.foldl_cons]
    have nd' := List.nodup_cons.1 nd
    by_cases e : x = j
    · subst e
      rw [read_foldl_memWrite_other idx b xs
        (fun i hi => dist i (List.mem_cons_of_mem _ hi) (fun e => nd'.1 (e ▸ hi)))]
      exact Memory.read_write_same h
    · exact ih nd'.2 (fun i hi => dist i (List.mem_cons_of_mem _ hi))
        ((List.mem_cons.1 hj).resolve_left (Ne.symm e)) (wf_memWrite h)

/-- Twenty addresses from an index on are distinct, even where they wrap. -/
theorem Operands.addr_ne {o : Operands} {idx i j : Nat} (hi : i < 20) (hj : j < 20) (ne : i ≠ j) :
    o.addr (idx + j) ≠ o.addr (idx + i) := by
  unfold Operands.addr
  omega

/-- What the 20 stores change: nothing outside their addresses (20_memory.md R70). -/
theorem read_storeRange_other {o : Operands} {b : Nat → Byte} {m : Memory} {a : Nat}
    (ne : ∀ j < 20, a ≠ o.addr (o.off.toNat + j)) : (storeRange o b m).read a = m.read a :=
  read_foldl_memWrite_other (fun j => o.off.toNat + j) b _ fun j hj => ne j (List.mem_range.1 hj)

/-- What the 20 stores leave at their addresses. -/
theorem read_storeRange_at {o : Operands} {b : Nat → Byte} {m : Memory} {j : Nat} (hj : j < 20) (h : m.wf = true) :
    (storeRange o b m).read (o.addr (o.off.toNat + j)) = b j :=
  read_foldl_memWrite_at (fun j => o.off.toNat + j) b _ List.nodup_range
    (fun _ hi ne => Operands.addr_ne (List.mem_range.1 hi) hj ne) (List.mem_range.2 hj) h

end Sys2Proof.Machine
end

