-- ==== Sys2Proof/Laws/Ops.lean ====
section
/-! SUPPORT. What the shared operations decide and answer, said once: outcomes, the argument checks, the
words of a command, the end of a command. -/

namespace Sys2Proof.Machine

/-! ### Outcomes -/

@[simp] theorem andThen_next (s : State) (f : State → Result) : andThen (.next s) f = f s := rfl

@[simp] theorem andThen_fault (e : Fault) (f : State → Result) : andThen (.fault e) f = .fault e := rfl

@[simp] theorem andThen_refused (e : Refusal) (f : State → Result) : andThen (.refused e) f = .refused e := rfl

theorem andThen_eq_next {r : Result} {f : State → Result} {t : State} :
    andThen r f = .next t ↔ ∃ s, r = .next s ∧ f s = .next t := by
  cases r <;> simp

theorem andThen_eq_fault {r : Result} {f : State → Result} {e : Fault} :
    andThen r f = .fault e ↔ r = .fault e ∨ ∃ s, r = .next s ∧ f s = .fault e := by
  cases r <;> simp

@[simp] theorem runOps_nil (s : State) : runOps [] s = .next s := rfl

theorem runOps_cons (i : Instr) (rest : List Instr) (s : State) :
    runOps (i :: rest) s = andThen (exec i s) fun s' => runOps rest (seqControl i s') := rfl

/-! ### The argument checks -/

theorem Operands.fits_iff {o : Operands} : o.fits = true ↔ o.bufbase.toNat + o.bufsize.toNat ≤ 2 ^ 32 :=
  decide_eq_true_iff

/-- The bounds of the signed and unsigned operands (30_encoding.md R95). -/
theorem Operands.bounds (o : Operands) :
    -2 ^ 31 ≤ o.off ∧ o.off < 2 ^ 31 ∧ -2 ^ 31 ≤ o.len ∧ o.len < 2 ^ 31 ∧ 0 ≤ o.size ∧ o.size < 2 ^ 32 := by
  have a := BitVec.le_toInt o.offset
  have b := BitVec.toInt_lt (x := o.offset)
  have c := BitVec.le_toInt o.length
  have d := BitVec.toInt_lt (x := o.length)
  have e := o.bufsize.isLt
  simp only [Operands.off, Operands.len, Operands.size]
  omega

theorem Operands.launches_iff {p : Bool} {o : Operands} :
    o.launches p = true ↔ (p = true → o.bufbase.toNat + o.bufsize.toNat ≤ 2 ^ 32) := by
  cases p <;> simp [Operands.launches, Operands.fits]

/-- R61: a command is refused exactly when its launch premise is broken. -/
theorem updateCheck_eq_wraps {p : Bool} {o : Operands} : updateCheck p o = .wraps ↔ o.launches p = false := by
  unfold updateCheck
  split_ifs <;> simp_all

theorem finishtoCheck_eq_wraps {p : Bool} {o : Operands} : finishtoCheck p o = .wraps ↔ o.launches p = false := by
  unfold finishtoCheck
  split_ifs <;> simp_all

/-- R124: the checks of `UPDATE` let bytes be moved exactly when the buffer is present, the operands are in
their domain and the length is not 0. -/
theorem updateCheck_eq_run {p : Bool} {o : Operands} :
    updateCheck p o = .run ↔ p = true ∧ o.feeds ∧ 0 < o.len := by
  have la := Operands.launches_iff (p := p) (o := o)
  unfold updateCheck Operands.feeds
  cases h : o.launches p <;> cases p <;> simp_all <;> split_ifs <;> simp <;> omega

/-- R124 steps 2 and 4: the command succeeds without moving a byte. -/
theorem updateCheck_eq_nothing {p : Bool} {o : Operands} :
    updateCheck p o = .nothing ↔ o.launches p = true ∧ 0 ≤ o.off ∧ o.len = 0 ∧ (p = true → o.off ≤ o.size) := by
  unfold updateCheck
  cases h : o.launches p <;> cases p <;> simp <;> split_ifs <;> simp <;> omega

/-- No check raises `OK` (R201, R202). -/
theorem updateCheck_raises {p : Bool} {o : Operands} {e : ErrCode} (h : updateCheck p o = .raise e) : e ≠ .ok := by
  unfold updateCheck at h
  split_ifs at h <;> simp_all [Config.nullZeroNegOffset] <;> (subst h; decide)

/-- R127: the checks of `FINISHTO` pass exactly when the buffer is present and the operands are in their
domain. -/
theorem finishtoCheck_eq_run {p : Bool} {o : Operands} :
    finishtoCheck p o = .run ↔ p = true ∧ o.receives := by
  have la := Operands.launches_iff (p := p) (o := o)
  have e : (Config.digestLen : Int) = 20 := rfl
  unfold finishtoCheck Operands.receives
  rw [e]
  cases h : o.launches p
  · simp_all
  · rw [if_neg (by simp)]
    by_cases neg : o.off < 0
    · simp [neg]
    · rw [if_neg neg]
      cases p
      · simp
      · rw [if_neg (by simp)]
        by_cases big : o.size < o.off + 20
        · rw [if_pos big]; simp; omega
        · rw [if_neg big]; exact ⟨fun _ => ⟨rfl, by omega, by omega, la.1 h rfl⟩, fun _ => rfl⟩

theorem finishtoCheck_ne_nothing {p : Bool} {o : Operands} : finishtoCheck p o ≠ .nothing := by
  unfold finishtoCheck
  split_ifs <;> simp

theorem finishtoCheck_raises {p : Bool} {o : Operands} {e : ErrCode} (h : finishtoCheck p o = .raise e) :
    e ≠ .ok := by
  unfold finishtoCheck at h
  split_ifs at h <;> simp_all <;> (subst h; decide)

/-! ### The bytes of a command -/

@[simp] theorem inputBytes_length (o : Operands) (m : Memory) : (inputBytes o m).length = o.len.toNat := by
  simp [inputBytes]

/-- R62: inside a buffer that fits, `MemRead` reads the byte at `BUFBASE + idx`. -/
theorem memRead_eq {o : Operands} {m : Memory} {idx : Nat} (fits : o.bufbase.toNat + o.bufsize.toNat ≤ 2 ^ 32)
    (lt : (idx : Int) < o.size) : memRead o m idx = m.read (o.bufbase.toNat + idx) := by
  unfold memRead
  rw [Operands.addr_eq]
  simp only [Operands.size] at lt
  omega

/-! ### What a command word is -/

/-- R93: every command word decodes to one of the seven rows of format CMD. -/
theorem isCommand_decodeCmd (w : Word) : isCommand (decodeCmd w) = true := by
  unfold decodeCmd
  split
  · rfl
  · split <;> rfl

/-- Only a word with `P = 1` decodes to a command with a present buffer (R92). -/
theorem pField_of_update {w : Word} {p : Bool} (h : decodeCmd w = .update p) : pField w = p := by
  unfold decodeCmd at h
  split at h
  · cases h
  · split at h <;> simp_all

/-! ### The end of a command -/

/-- The model's end of a command is the one claims speak of. -/
theorem State.complete_eq_ended (s : State) (e : ErrCode) :
    s.complete e = s.ended e (Config.freeScratch s.draws) := rfl

/-- What the `OUT` step stores (R127 step 6): a `FINISHTO` its digest, a `FINISH` nothing; only memory is written. -/
theorem State.storeOut_eq (s : State) :
    (∃ p, decodeCmd s.scratch.cmd = .finishto p) ∧
        s.storeOut = { s with mem := storeDigest s.scratch.opr s.dout s.mem } ∨
      s.storeOut = s := by
  unfold State.storeOut
  generalize storeDigest s.scratch.opr s.dout s.mem = m
  split
  · rename_i p e
    exact .inl ⟨⟨p, e⟩, rfl⟩
  · exact .inr rfl

/-- A canonical memory stays canonical through the `OUT` step. -/
theorem State.wf_storeOut {s : State} (h : s.mem.wf = true) : s.storeOut.mem.wf = true := by
  have w := wf_storeDigest (o := s.scratch.opr) (d := s.dout) h
  rcases s.storeOut_eq with ⟨_, e⟩ | e <;> rw [e]
  · generalize storeDigest s.scratch.opr s.dout s.mem = m at w ⊢
    exact w
  · exact h

/-- A round at an index of the schedule. -/
theorem roundStep_of_lt {f : Word → Word → Word → Word} {k : Word} {t : BitVec 7} {s : State}
    (h : t.toNat < 80) : roundStep f k t s = .next { s with dp := s.dp.round f k t } := if_pos h

end Sys2Proof.Machine
end

