-- ==== Sys2Proof/Laws/PerInstr.lean ====
section
/-! SUPPORT. Statements about every instruction as syntax: each instruction's word fits its row of
spec/opcode_table.json. -/

namespace Sys2Proof.Laws

/-- The `match` and `mask` columns of the opcode table, the words of the two formats as numbers. -/
def tableRow : Instr → Nat × Nat
  | .getdlen => (0x00000000, 0xFFFFFFF7)
  | .getblen => (0x00000001, 0xFFFFFFF7)
  | .reset => (0x00000002, 0xFFFFFFF7)
  | .update _ => (0x00000003, 0xFFFFFFF7)
  | .finish => (0x00000004, 0xFFFFFFF7)
  | .finishto _ => (0x00000005, 0xFFFFFFF7)
  | .illegal _ => (0x00000006, 0xFFFFFFF6)
  | .absorb => (0x100, 0x380)
  | .loadw => (0x180, 0x380)
  | .round1 _ => (0x200, 0x380)
  | .round2 _ => (0x200, 0x380)
  | .round3 _ => (0x200, 0x380)
  | .round4 _ => (0x200, 0x380)
  | .sched _ => (0x200, 0x380)
  | .addback => (0x280, 0x380)
  | .pad => (0x300, 0x380)
  | .serialise => (0x380, 0x380)
  | .reinit => (0x380, 0x380)
  | .putbyte _ => (0x100, 0x180)

/-- A word under a row's mask gives the row's match; the row `ILLEGAL` has, beside its match, every word
with a reserved bit set (the row's note, 30_encoding.md R96). -/
def fitsRow (i : Instr) : Bool :=
  match encode i with
  | .cmd w =>
    decide (w.toNat &&& (tableRow i).2 = (tableRow i).1) ||
      (match i with
        | .illegal w => rsvField w != 0#28
        | _ => false)
  | .seq w => decide (w.toNat &&& (tableRow i).2 = (tableRow i).1)

/-- The word of a well-formed instruction fits the instruction's row. -/
def WordFitsRow.Statement (i : Instr) : Prop := i.wellFormed = true → fitsRow i = true

theorem WordFitsRow.getdlen : WordFitsRow.Statement .getdlen := fun _ => by decide
theorem WordFitsRow.getblen : WordFitsRow.Statement .getblen := fun _ => by decide
theorem WordFitsRow.reset : WordFitsRow.Statement .reset := fun _ => by decide
theorem WordFitsRow.update (p : Bool) : WordFitsRow.Statement (.update p) := fun _ => by cases p <;> decide
theorem WordFitsRow.finish : WordFitsRow.Statement .finish := fun _ => by decide
theorem WordFitsRow.finishto (p : Bool) : WordFitsRow.Statement (.finishto p) := fun _ => by cases p <;> decide

/-- With no reserved bit set, an illegal word is one of 6, 7, 14 and 15 (R96). -/
theorem WordFitsRow.illegal (word : Word) : WordFitsRow.Statement (.illegal word) := by
  intro h
  by_cases rsv : rsvField word = 0#28
  · have op : 6 ≤ (word.extractLsb' 0 3).toNat := by
      have e : word.extractLsb' 4 28 = 0#28 := rsv
      simpa [Instr.wellFormed, isIllegalWord, e] using h
    have small : word.toNat < 16 := by
      have e : (word.extractLsb' 4 28).toNat = 0 := congrArg BitVec.toNat rsv
      have lt := word.isLt
      simp only [BitVec.extractLsb'_toNat, Nat.shiftRight_eq_div_pow] at e
      omega
    have range : ∀ n : Fin 16, 6 ≤ n.val % 8 → n.val &&& 0xFFFFFFF6 = 6 := by decide
    have low : 6 ≤ word.toNat % 8 := by simpa using op
    have row := range ⟨word.toNat, small⟩ low
    simp only [fitsRow, encode, tableRow, Bool.or_eq_true]
    exact Or.inl (decide_eq_true row)
  · simp [fitsRow, encode, rsv]

theorem WordFitsRow.absorb : WordFitsRow.Statement .absorb := fun _ => by decide
theorem WordFitsRow.loadw : WordFitsRow.Statement .loadw := fun _ => by decide

/-- Every `T` under `PHASE = ROUND` fits the rows of the rounds and of `SCHED`. -/
theorem round_fits : ∀ t : BitVec 7, (seqWord 4 t).toNat &&& 0x380 = 0x200 := by decide

theorem WordFitsRow.round1 (t : BitVec 7) : WordFitsRow.Statement (.round1 t) := fun _ => decide_eq_true (round_fits t)
theorem WordFitsRow.round2 (t : BitVec 7) : WordFitsRow.Statement (.round2 t) := fun _ => decide_eq_true (round_fits t)
theorem WordFitsRow.round3 (t : BitVec 7) : WordFitsRow.Statement (.round3 t) := fun _ => decide_eq_true (round_fits t)
theorem WordFitsRow.round4 (t : BitVec 7) : WordFitsRow.Statement (.round4 t) := fun _ => decide_eq_true (round_fits t)
theorem WordFitsRow.sched (t : BitVec 7) : WordFitsRow.Statement (.sched t) := fun _ => decide_eq_true (round_fits t)
theorem WordFitsRow.addback : WordFitsRow.Statement .addback := fun _ => by decide
theorem WordFitsRow.pad : WordFitsRow.Statement .pad := fun _ => by decide
theorem WordFitsRow.serialise : WordFitsRow.Statement .serialise := fun _ => by decide
theorem WordFitsRow.reinit : WordFitsRow.Statement .reinit := fun _ => by decide
theorem WordFitsRow.putbyte (b : Byte) : WordFitsRow.Statement (.putbyte b) := fun _ =>
  decide_eq_true (by decide : (seqWord 2 0).toNat &&& 0x180 = 0x100)

end Sys2Proof.Laws
end

