-- ==== Sys2Proof/Machine/Assembler.lean ====
section
/-! DEFINITION. The command notation of the spec's programs (30_encoding.md R100, R101): each line as the
accesses the host makes, so that a program of 95_test_vectors.md is a list of lines. -/

namespace Sys2Proof.Machine

/-- A named buffer, `name: size N at ADDR` (R100). -/
structure Buffer where
  addr : Word
  size : Word
deriving DecidableEq, Repr

/-- A line of a program (R100); a buffer argument is absent for `null`. -/
inductive Line where
  | getdlen
  | getblen
  | reset
  | update (buf : Option Buffer) (off len : Int)
  | finish
  | finishto (buf : Option Buffer) (off : Int)
  /-- `UPDATEB` (R101): a fresh buffer at `addr` that holds exactly these bytes. -/
  | updateb (addr : Word) (bytes : List Byte)
  /-- `HASH buf, off, len` (R101). -/
  | hash (buf : Buffer) (off len : Int)
deriving DecidableEq, Repr

/-- A register write of the program. -/
def setReg (off : Nat) (v : Word) : HostAction := .write { off := off, width := 4 } v

/-- The `CMD` write and the wait for `BUSY = 0` that ends every line (R100). -/
def sendCommand (w : Word) : List HostAction := [setReg offCmd w, .await]

/-- The writes of the buffer descriptor (R100). -/
def setBuffer (b : Buffer) : List HostAction := [setReg 0x18 b.addr, setReg 0x14 b.size]

/-- An operand as the register holds it, two's complement (R100). -/
def operandWord (n : Int) : Word := BitVec.ofInt 32 n

/-- `UPDATE buf, off, len` and `UPDATE null, off, len` (R100). -/
def updateActions (buf : Option Buffer) (off len : Int) : List HostAction :=
  match buf with
  | some b =>
    setBuffer b ++ [setReg 0x0C (operandWord off), setReg 0x10 (operandWord len)] ++ sendCommand 0x0000000B#32
  | none => [setReg 0x0C (operandWord off), setReg 0x10 (operandWord len)] ++ sendCommand 0x00000003#32

/-- The host fills a buffer of its own. -/
def storeBytes : Word → List Byte → List HostAction
  | _, [] => []
  | a, b :: bs => .store a b :: storeBytes (a + 1#32) bs

/-- The accesses of one line (R100, R101). -/
def Line.actions : Line → List HostAction
  | .getdlen => sendCommand 0x00000000#32
  | .getblen => sendCommand 0x00000001#32
  | .reset => sendCommand 0x00000002#32
  | .update buf off len => updateActions buf off len
  | .finish => sendCommand 0x00000004#32
  | .finishto (some b) off => setBuffer b ++ [setReg 0x0C (operandWord off)] ++ sendCommand 0x0000000D#32
  | .finishto none off => [setReg 0x0C (operandWord off)] ++ sendCommand 0x00000005#32
  | .updateb addr bytes =>
    storeBytes addr bytes ++ updateActions (some ⟨addr, BitVec.ofNat 32 bytes.length⟩) 0 bytes.length
  | .hash b off len =>
    sendCommand 0x00000002#32 ++ updateActions (some b) off len ++ sendCommand 0x00000004#32

/-- A program as the list of the host's accesses. -/
def assemble (ls : List Line) : List HostAction := ls.flatMap Line.actions

end Sys2Proof.Machine
end

