-- ==== Sys2Proof/Tests/Slice0.lean ====
section
/-! SUPPORT. Tests of the model. Every expected value is one that spec/95_test_vectors.md or spec/30_encoding.md
prints, but where a comment says how it was computed by hand from a rule. -/

namespace Sys2Proof.Tests

open Sys2Proof Sys2Proof.Machine

/-! ### Helpers -/

/-- The next state of a result. -/
def nextOf : Result → Option State
  | .next s => some s
  | .fault _ => none
  | .refused _ => none

/-- A view of the next state of a result. -/
def after {α : Type} (r : Result) (view : State → α) : Option α := (nextOf r).map view

/-- The refusal of a result. -/
def refusalOf : Result → Option Refusal
  | .next _ => none
  | .fault _ => none
  | .refused e => some e

/-- The fault of a result. -/
def faultOf : Result → Option Fault
  | .next _ => none
  | .fault e => some e
  | .refused _ => none

/-- `H`, `PL`, `TB`, `FIN`, `ERR`. -/
def view (s : State) : Vector Word 5 × Nat × Nat × Bool × ErrCode :=
  (s.h, s.pl.val, s.tb.toNat, s.fin, s.err)

def iv : Vector Word 5 := #v[0x67452301, 0xEFCDAB89, 0x98BADCFE, 0x10325476, 0xC3D2E1F0]

/-- The state after `UPDATEB 61 62` (95_test_vectors.md 4), with a buffer `0 1 2 .. 9` at 0x1000. -/
def start : State :=
  { State.reset with
    pb := (State.reset.pb.set 0 0x61#8).set 1 0x62#8
    pl := 2
    tb := 16#64
    mem := [(0x1001, 1#8), (0x1002, 2#8), (0x1003, 3#8), (0x1004, 4#8), (0x1005, 5#8),
      (0x1006, 6#8), (0x1007, 7#8), (0x1008, 8#8), (0x1009, 9#8)] }

def withOperands (s : State) (offset length bufsize : Word) : State :=
  { s with opr := ⟨offset, length, bufsize, 0x1000#32⟩ }

/-- `ERR` of `UPDATE` on the operands, and whether the digest state is that of `start`. -/
def updateErr (p : Bool) (offset length bufsize : Word) : Option (ErrCode × Bool) :=
  after (exec (.update p) (withOperands start offset length bufsize)) fun t =>
    (t.err, decide (t.h = iv ∧ t.pb = start.pb ∧ t.pl = 2 ∧ t.tb = 16#64 ∧ t.fin = false))

def finishtoErr (p : Bool) (offset bufsize : Word) : Option (ErrCode × Bool) :=
  after (exec (.finishto p) (withOperands start offset 0#32 bufsize)) fun t =>
    (t.err, decide (t.h = iv ∧ t.pb = start.pb ∧ t.pl = 2 ∧ t.tb = 16#64 ∧ t.fin = false ∧ t.mem = start.mem))

/-- A core in a phase, busy, with a round index. -/
def inPhase (p : Phase) (t : BitVec 7) (s : State) : State :=
  { s with busy := true, phase := p, dp := { s.dp with t := t } }

/-- The working registers `v` and one schedule word (trace of 95_test_vectors.md 2.2). -/
def atRound (t : BitVec 7) (w : Word) (v : Vector Word 5) : State :=
  inPhase .round t { State.reset with dp := { State.reset.dp with v := v, w := State.reset.dp.w.set! t.toNat w } }

/-! ### WellFormed: a term each check refuses -/

theorem test_illegal_with_a_legal_word : (Instr.illegal 0x0000000B#32).wellFormed = false := by decide
theorem test_illegal_with_a_reserved_op : (Instr.illegal 0x00000006#32).wellFormed = true := by decide
theorem test_round1_past_its_stage : (Instr.round1 20#7).wellFormed = false := by decide
theorem test_round2_before_its_stage : (Instr.round2 19#7).wellFormed = false := by decide
theorem test_round2_past_its_stage : (Instr.round2 40#7).wellFormed = false := by decide
theorem test_round3_before_its_stage : (Instr.round3 39#7).wellFormed = false := by decide
theorem test_round3_past_its_stage : (Instr.round3 60#7).wellFormed = false := by decide
theorem test_round4_before_its_stage : (Instr.round4 59#7).wellFormed = false := by decide
theorem test_round4_past_its_stage : (Instr.round4 80#7).wellFormed = false := by decide
theorem test_sched_before_its_range : (Instr.sched 15#7).wellFormed = false := by decide
theorem test_sched_past_its_range : (Instr.sched 80#7).wellFormed = false := by decide

/-! ### Decoding: words written out from 30_encoding.md R93, R96, R99 -/

theorem test_decode_getdlen : decodeCmd 0b00000000000000000000000000001000#32 = .getdlen := by decide
theorem test_decode_getblen : decodeCmd 0b00000000000000000000000000000001#32 = .getblen := by decide
theorem test_decode_reset : decodeCmd 0b00000000000000000000000000001010#32 = .reset := by decide
theorem test_decode_update_absent : decodeCmd 0b00000000000000000000000000000011#32 = .update false := by decide
theorem test_decode_update_present : decodeCmd 0b00000000000000000000000000001011#32 = .update true := by decide
theorem test_decode_finish : decodeCmd 0b00000000000000000000000000000100#32 = .finish := by decide
theorem test_decode_finishto_absent : decodeCmd 0b00000000000000000000000000000101#32 = .finishto false := by decide
theorem test_decode_finishto_present : decodeCmd 0b00000000000000000000000000001101#32 = .finishto true := by decide
theorem test_decode_illegal_op : decodeCmd 0b00000000000000000000000000001111#32 = .illegal 0xF#32 := by decide
theorem test_decode_illegal_rsv : decodeCmd 0b10000000000000000000000000000011#32 = .illegal 0x80000003#32 := by
  decide

/-- `PHASE = 000`, `001`: no micro-operation of the table. -/
theorem test_decode_idle_check :
    decodeSeq 0b0000000000#10 = .error .idle ∧ decodeSeq 0b0010000000#10 = .error .check := by decide
theorem test_decode_absorb : decodeSeq 0b0101010000#10 = .ok [.absorb] := by decide
theorem test_decode_loadw : decodeSeq 0b0111010000#10 = .ok [.loadw] := by decide
theorem test_decode_round1 : decodeSeq 0b1000001111#10 = .ok [.round1 15#7] := by decide
theorem test_decode_sched : decodeSeq 0b1000010000#10 = .ok [.sched 16#7, .round1 16#7] := by decide
theorem test_decode_round2 :
    decodeSeq 0b1000010100#10 = .ok [.sched 20#7, .round2 20#7] ∧
    decodeSeq 0b1000100111#10 = .ok [.sched 39#7, .round2 39#7] := by decide
theorem test_decode_round3 :
    decodeSeq 0b1000101000#10 = .ok [.sched 40#7, .round3 40#7] ∧
    decodeSeq 0b1000111011#10 = .ok [.sched 59#7, .round3 59#7] := by decide
theorem test_decode_round4 :
    decodeSeq 0b1000111100#10 = .ok [.sched 60#7, .round4 60#7] ∧
    decodeSeq 0b1001001111#10 = .ok [.sched 79#7, .round4 79#7] := by decide
theorem test_decode_round_past_79 : decodeSeq 0b1001010000#10 = .error .unreached := by decide
theorem test_decode_addback : decodeSeq 0b1011010000#10 = .ok [.addback] := by decide
theorem test_decode_pad : decodeSeq 0b1101010000#10 = .ok [.pad] := by decide
theorem test_decode_serialise_reinit : decodeSeq 0b1111010000#10 = .ok [.serialise, .reinit] := by decide

/-- `PUTBYTE` has no selector (R181); its word is that of the phase whose body it is. -/
theorem test_encode_putbyte : encode (.putbyte 0x18#8) = .seq 0b0100000000#10 := by decide

theorem test_decodeTableWord :
    decodeTableWord 32 0x0000000B = some (.update true) ∧ decodeTableWord 32 0xFFFFFFFF = some (.illegal 0xFFFFFFFF#32) ∧
    decodeTableWord 16 0x2D0 = some .addback ∧ decodeTableWord 16 0x23C = some (.round4 60#7) ∧
    decodeTableWord 16 0x400 = none ∧ decodeTableWord 16 0x24F = some (.round4 79#7) := by decide

/-- The next step runs the word placed by `withFetchWord`: `GETBLEN` (0x9) and `ADDBACK` (0x2D0), the latter with
`resume = FEED` and `i = len = 0`, `V = 0`. -/
theorem test_withFetchWord :
    after (step (State.reset.withFetchWord 32 0x9)) (·.result) = some 64#32 ∧
    after (step (State.reset.withFetchWord 16 0x2D0)) (fun t => (t.phase, t.busy, t.h)) = some (.idle, false, iv) := by
  decide

/-! ### Primitives (95_test_vectors.md 2.1) -/

theorem test_rotl :
    rotl 1 0x80000001#32 = 0x00000003#32 ∧ rotl 1 0x12345678#32 = 0x2468ACF0#32 ∧
    rotl 5 0x67452301#32 = 0xE8A4602C#32 ∧ rotl 30 0xEFCDAB89#32 = 0x7BF36AE2#32 ∧
    rotl 30 0x12345678#32 = 0x048D159E#32 := by decide

theorem test_round_functions :
    ch 0x12345678#32 0x9ABCDEF0#32 0x0FEDCBA9#32 = 0x1FFDDFF1#32 ∧
    parity 0x12345678#32 0x9ABCDEF0#32 0x0FEDCBA9#32 = 0x87654321#32 ∧
    maj 0x12345678#32 0x9ABCDEF0#32 0x0FEDCBA9#32 = 0x1ABCDEF8#32 := by decide

theorem test_be32 : be32 0x61#8 0x62#8 0x63#8 0x80#8 = 0x61626380#32 ∧ byteOf 0x61626380#32 3 = 0x80#8 := by decide

/-! ### The commands -/

theorem test_getdlen : after (exec .getdlen start) (fun t => (t.result, view t)) =
    some (20#32, iv, 2, 16, false, .ok) := by decide

theorem test_getblen : after (exec .getblen start) (fun t => (t.result, view t)) =
    some (64#32, iv, 2, 16, false, .ok) := by decide

theorem test_reset :
    let r := exec .reset { start with h := #v[1#32, 2#32, 3#32, 4#32, 5#32], fin := true, result := 7#32 }
    after r view = some (iv, 0, 0, false, .ok) ∧ after r (fun t => (t.result, t.pb)) = some (7#32, start.pb) := by
  decide

/-- 4.1 rows 1 and 5. -/
theorem test_update_absorbs :
    after (exec (.update true) (withOperands { start with fin := true } 0#32 10#32 10#32)) view =
      some (iv, 12, 96, false, .ok) ∧
    after (exec (.update true) (withOperands start 5#32 5#32 10#32)) (fun t => (t.pl, t.tb, t.pb[2], t.pb[6])) =
      some (7, 56#64, 5#8, 9#8) := by decide

/-- 4.1 rows 2, 3, 4, 6, 7, 8, 9, 10, 11, 12, 19 (buffer present) and 13 to 18 (absent). -/
theorem test_update_checks :
    updateErr true 10#32 0#32 10#32 = some (.ok, true) ∧
    updateErr true 11#32 0#32 10#32 = some (.invalidArgument, true) ∧
    updateErr true 5#32 6#32 10#32 = some (.invalidArgument, true) ∧
    updateErr true 0xFFFFFFFF#32 1#32 10#32 = some (.invalidArgument, true) ∧
    updateErr true 0#32 0xFFFFFFFF#32 10#32 = some (.invalidArgument, true) ∧
    updateErr true 0x80000000#32 0#32 10#32 = some (.invalidArgument, true) ∧
    updateErr true 0x7FFFFFFF#32 0x7FFFFFFF#32 10#32 = some (.invalidArgument, true) ∧
    updateErr true 0x7FFFFFFF#32 1#32 10#32 = some (.invalidArgument, true) ∧
    updateErr true 0#32 0#32 0#32 = some (.ok, true) ∧
    updateErr true 0#32 1#32 0#32 = some (.invalidArgument, true) ∧
    updateErr true 0xFFFFFFFF#32 20#32 10#32 = some (.invalidArgument, true) ∧
    updateErr false 0#32 0#32 10#32 = some (.ok, true) ∧
    updateErr false 5#32 0#32 0#32 = some (.ok, true) ∧
    updateErr false 0#32 1#32 10#32 = some (.nullInput, true) ∧
    updateErr false 0xFFFFFFFF#32 1#32 10#32 = some (.invalidArgument, true) ∧
    updateErr false 0#32 0xFFFFFFFF#32 10#32 = some (.invalidArgument, true) ∧
    updateErr false 0xFFFFFFFF#32 0#32 10#32 = some (.invalidArgument, true) := by decide

set_option maxRecDepth 100000 in
/-- S1: the digest of the empty message. -/
theorem test_finish_empty : after (exec .finish State.reset) (fun t => (t.dout, view t)) =
    some (#v[0xDA39A3EE#32, 0x5E6B4B0D#32, 0x3255BFEF#32, 0x95601890#32, 0xAFD80709#32], iv, 0, 0, true, .ok) := by
  decide

set_option maxRecDepth 100000 in
/-- 4.2 row 4: the digest of `61 62` at buffer indices 12 to 31, the byte before it and the one after. -/
theorem test_finishto_stores :
    after (exec (.finishto true) (withOperands { start with mem := [(0x100B, 7#8), (0x1020, 8#8)] } 12#32 0#32 32#32))
      (fun t => ([0x100B, 0x100C, 0x100F, 0x101F, 0x1020].map t.mem.read, t.dout)) =
    some ([7#8, 0xda#8, 0x4e#8, 0xdc#8, 8#8],
      #v[0xDA23614E#32, 0x02469A0D#32, 0x7C7BD1BD#32, 0xAB5C9C47#32, 0x4B1904DC#32]) := by
  decide

/-- 4.2 rows 2, 3, 5, 6, 9, 10 (buffer present), 7 and 8 (absent). -/
theorem test_finishto_checks :
    finishtoErr true 1#32 0x14#32 = some (.invalidArgument, true) ∧
    finishtoErr true 0#32 0x13#32 = some (.invalidArgument, true) ∧
    finishtoErr true 13#32 0x20#32 = some (.invalidArgument, true) ∧
    finishtoErr true 0xFFFFFFFF#32 0x20#32 = some (.invalidArgument, true) ∧
    finishtoErr true 0x7FFFFFFF#32 0x80000012#32 = some (.invalidArgument, true) ∧
    finishtoErr true 0#32 0#32 = some (.invalidArgument, true) ∧
    finishtoErr false 0#32 0x20#32 = some (.nullInput, true) ∧
    finishtoErr false 0xFFFFFFFF#32 0x20#32 = some (.invalidArgument, true) := by decide

/-- P3 lines 7 and 8. -/
theorem test_illegal :
    after (exec (decodeCmd 0x6#32) start) view = some (iv, 2, 16, false, .illegalCommand) ∧
    after (exec (decodeCmd 0x14#32) start) view = some (iv, 2, 16, false, .illegalCommand) := by decide

/-- R61, U8: a buffer one byte past 2^32, with length 0, with a negative offset, and at the `CMD` write. -/
theorem test_wrapping_launch :
    let s (off len : Word) : State := { start with opr := ⟨off, len, 17#32, 0xFFFFFFF0#32⟩ }
    refusalOf (exec (.update true) (s 0#32 0#32)) = some .bufferWraps ∧
    refusalOf (exec (.finishto true) (s 0xFFFFFFFF#32 0#32)) = some .bufferWraps ∧
    refusalOf (step { s 0#32 0#32 with host := [.write ⟨0, 4⟩ 0xD#32] }) = some .bufferWraps ∧
    after (step { s 0#32 0#32 with host := [.write ⟨0, 4⟩ 0x3#32] }) (·.phase) = some .check := by decide

/-! ### The micro-operations -/

/-- Rows 0, 20, 40, 60 and 79 of the trace in 2.2: the registers after the row from those after the row before. -/
theorem test_round1 :
    after (exec (.round1 0#7) (atRound 0#7 0x61626380#32 iv)) (fun t => (t.dp.v, t.dp.t)) =
      some (#v[0x0116FC33#32, 0x67452301#32, 0x7BF36AE2#32, 0x98BADCFE#32, 0x10325476#32], 1#7) := by decide

theorem test_round2 :
    after (exec (.round2 20#7) (atRound 20#7 0#32
      #v[0xFD9E1D7D#32, 0xDC64901D#32, 0x20AA99CA#32, 0xD3A49608#32, 0xC82F758B#32])) (fun t => (t.dp.v, t.dp.t)) =
      some (#v[0x1A37B0CA#32, 0xFD9E1D7D#32, 0x77192407#32, 0x20AA99CA#32, 0xD3A49608#32], 21#7) := by decide

theorem test_round3 :
    after (exec (.round3 40#7) (atRound 40#7 0xD2E138C4#32
      #v[0x32DE1CBA#32, 0x4C986405#32, 0xF718E5CF#32, 0x03D447F6#32, 0xF72EEC32#32])) (fun t => (t.dp.v, t.dp.t)) =
      some (#v[0xFC87DEDF#32, 0x32DE1CBA#32, 0x53261901#32, 0xF718E5CF#32, 0x03D447F6#32], 41#7) := by decide

theorem test_round4 :
    after (exec (.round4 60#7) (atRound 60#7 0x7BA06619#32
      #v[0x3F52DE5A#32, 0x09D785FD#32, 0x3498BFD4#32, 0xF211824F#32, 0xD79915AB#32])) (fun t => (t.dp.v, t.phase)) =
      some (#v[0xD756C147#32, 0x3F52DE5A#32, 0x4275E17F#32, 0x3498BFD4#32, 0xF211824F#32], .round) := by decide

theorem test_round4_last :
    after (exec (.round4 79#7) (atRound 79#7 0x822E0879#32
      #v[0x5738D5E1#32, 0x860D21CC#32, 0x681E6DF6#32, 0xD8FDF6AD#32, 0xD7B9DA25#32]))
      (fun t => (t.dp.v, t.dp.t, t.phase)) =
      some (#v[0x42541B35#32, 0x5738D5E1#32, 0x21834873#32, 0x681E6DF6#32, 0xD8FDF6AD#32], 80#7, .addback) := by
  decide

/-- The `SCHED` row of 2.1, at `T = 16` and at `T = 79`. -/
theorem test_sched :
    after (exec (.sched 16#7) { State.reset with dp := { State.reset.dp with
      w := ((State.reset.dp.w.set 13 0x80000000#32).set 8 0x80000000#32).set 2 1#32 } }) (fun t => t.dp.w[16]) =
      some 2#32 ∧
    after (exec (.sched 79#7) { State.reset with dp := { State.reset.dp with
      w := ((State.reset.dp.w.set 76 0x80000000#32).set 71 0x80000000#32).set 65 1#32 } }) (fun t => t.dp.w[79]) =
      some 2#32 := by decide

/-- 2.2: `LOADW` of `61 62 ..`, bytes 2 and 3 zero here, `V` from `H`, `T` to 0. -/
theorem test_loadw :
    after (exec .loadw (inPhase .loadw 80#7 { start with pl := 63 }))
      (fun t => (t.dp.w[0], t.dp.w[1], t.dp.v, t.dp.t, t.phase)) =
      some (0x61620000#32, 0#32, iv, 0#7, .round) := by decide

/-- The `ADDBACK` line of 2.2. -/
theorem test_addback :
    after (exec .addback (inPhase .addback 80#7 { State.reset with dp := { State.reset.dp with
      v := #v[0x42541B35#32, 0x5738D5E1#32, 0x21834873#32, 0x681E6DF6#32, 0xD8FDF6AD#32] } })) (fun t => (t.h, t.phase)) =
      some (#v[0xA9993E36#32, 0x4706816A#32, 0xBA3E2571#32, 0x7850C26C#32, 0x9CD0D89D#32], .feed) := by decide

set_option maxRecDepth 100000 in
/-- 2.3 row 1: 64 zero bytes from `IV`. -/
theorem test_putbyte_compresses :
    after (exec (.putbyte 0#8) { State.reset with pl := 63 }) (fun t => (t.h, t.pl, t.tb)) =
      some (#v[0x92B404E5#32, 0x56588CED#32, 0x6C1ACD4E#32, 0xBF053F68#32, 0x09F73A93#32], 0, 0#64) := by decide

/-- 3.5 row 4. -/
theorem test_putbyte_fills :
    after (exec (.putbyte 0x80#8) { State.reset with pl := 55 }) (fun t => (t.pb[55], t.pl, t.h)) =
      some (0x80#8, 56, iv) := by decide

/-- A busy `UPDATE` of the ten bytes at 0x1000, at byte 5, with `PL` and `TB` given. -/
def feeding (pl : Fin 64) (tb : BitVec 64) : State :=
  inPhase .feed 80#7 { start with
    pl := pl, tb := tb,
    scratch := { cmd := 0xB#32, opr := ⟨0#32, 10#32, 10#32, 0x1000#32⟩, i := 5#31, pad := .start, j := 0, resume := .pad } }

/-- 3.5 rows 2 and 3, with byte `05`; the block is full after row 3, so the sequencer goes to `LOADW` (R187). -/
theorem test_absorb :
    after (exec .absorb (feeding 62 496#64)) (fun t => (t.pb[62], t.pl, t.tb, t.scratch.i, t.phase)) =
      some (5#8, 63, 504#64, 6#31, .feed) ∧
    after (exec .absorb (feeding 63 504#64)) (fun t => (t.pb[63], t.pl, t.tb, t.phase, t.scratch.resume)) =
      some (5#8, 63, 512#64, .loadw, .feed) := by decide

/-- A busy finish before the padding byte `p`, with `PL` and the `TB` of 3.4. -/
def padding (p : PadStep) (pl : Fin 64) : State :=
  inPhase .pad 80#7 { State.reset with
    pl := pl, tb := 0x0123456789ABCDE8#64,
    scratch := { State.reset.scratch with cmd := 4#32, pad := p } }

/-- R183 with the length field of 3.4: `80`, a zero, the first length byte `01`, the last, `e8`. -/
theorem test_pad :
    after (exec .pad (padding .start 55)) (fun t => (t.pb[55], t.pl, t.scratch.pad)) = some (0x80#8, 56, .zeros) ∧
    after (exec .pad (padding .zeros 57)) (fun t => (t.pb[57], t.scratch.pad)) = some (0#8, .zeros) ∧
    after (exec .pad (padding .zeros 56)) (fun t => (t.pb[56], t.scratch.pad)) = some (0x01#8, .length 1) ∧
    after (exec .pad (padding (.length 7) 63)) (fun t => (t.pb[63], t.scratch.pad, t.phase)) =
      some (0xe8#8, .done, .loadw) := by decide

theorem test_serialise :
    after (exec .serialise start) (fun t => (t.dout, t.h)) = some (iv, iv) := by decide

/-- 3.5 row 6. -/
theorem test_reinit :
    let r := exec .reinit { start with h := #v[1#32, 2#32, 3#32, 4#32, 5#32], fin := true }
    after r view = some (iv, 0, 0, true, .ok) ∧ after r (·.pb) = some start.pb := by decide

/-! ### The host's side -/

/-- `STATUS` values of 95_test_vectors.md, "Conventions". -/
theorem test_status :
    statusWord false true .ok = 0x2#32 ∧ statusWord false false .nullInput = 0x4#32 ∧
    statusWord false true .invalidArgument = 0xA#32 ∧ statusWord false true .illegalCommand = 0xE#32 := by decide

/-- P1 line 2: the register writes of `UPDATE msg, 0, 3`, in the spec's order. -/
theorem test_assemble_update :
    assemble [.update (some ⟨0x1000#32, 3#32⟩) 0 3] =
      [.write ⟨0x18, 4⟩ 0x1000#32, .write ⟨0x14, 4⟩ 3#32, .write ⟨0x0C, 4⟩ 0#32, .write ⟨0x10, 4⟩ 3#32,
        .write ⟨0x00, 4⟩ 0xB#32, .await] := by decide

/-- P3 line 3: a negative offset is two's complement. -/
theorem test_assemble_negative_offset :
    assemble [.update (some ⟨0x4010#32, 1#32⟩) (-1) 1] =
      [.write ⟨0x18, 4⟩ 0x4010#32, .write ⟨0x14, 4⟩ 1#32, .write ⟨0x0C, 4⟩ 0xFFFFFFFF#32, .write ⟨0x10, 4⟩ 1#32,
        .write ⟨0x00, 4⟩ 0xB#32, .await] := by decide

/-! ### Witnesses: the hypotheses of each statement can be met, clause by clause -/

theorem witness_DecodeOfEncodeGivesTheInstruction :
    ∀ i ∈ [Instr.update true, .illegal 0x10#32, .round1 19#7, .round4 79#7, .sched 16#7, .reinit],
      i.wellFormed = true ∧ ¬ (i matches .putbyte _) := by decide

theorem witness_StepRunsTheIssuedCommand :
    let s := { State.reset with host := [HostAction.issue 0xB#32] }
    (Instr.update true).wellFormed = true ∧ isCommand (.update true) = true ∧ encode (.update true) = .cmd 0xB#32 ∧
      s.busy = false ∧ s.host = .issue 0xB#32 :: [] := by decide

theorem witness_StepRunsTheSelectedMicroOperations :
    (feeding 0 512#64).host = [] ∧ (feeding 0 512#64).phase = .feed ∧ (padding .start 0).phase = .pad ∧
    (inPhase .loadw 80#7 start).phase = .loadw ∧ (inPhase .addback 80#7 start).phase = .addback ∧
    (inPhase .out 80#7 start).phase = .out ∧
    ∀ t ∈ [0#7, 15#7, 16#7, 19#7, 20#7, 39#7, 40#7, 59#7, 60#7, 79#7, 80#7],
      (inPhase .round t start).phase = .round ∧ (inPhase .round t start).dp.t = t ∧
        (inPhase .round t start).host = [] := by decide

/-- A present buffer that ends exactly at 2^32, and one that ends a byte later. -/
theorem witness_CmdWriteSamplesAndEntersCheck :
    let s (size : Word) : State := { State.reset with
      opr := ⟨0#32, 1#32, size, 0xFFFFFFF0#32⟩, host := [HostAction.write { off := 0, width := 4 } 0xB#32] }
    ((s 16#32).busy = false ∧ (s 16#32).host = .write { off := 0, width := 4 } 0xB#32 :: [] ∧
      ¬ 2 ^ 32 < (s 16#32).opr.bufbase.toNat + (s 16#32).opr.bufsize.toNat) ∧
    ((s 17#32).busy = false ∧ (s 17#32).host = .write { off := 0, width := 4 } 0xB#32 :: [] ∧
      decodeCmd 0xB#32 = .update true ∧ 2 ^ 32 < (s 17#32).opr.bufbase.toNat + (s 17#32).opr.bufsize.toNat) := by
  decide

theorem witness_IdleCoreKeepsAllState : State.reset.phase = .idle ∧ State.reset.host = [] := by decide

theorem witness_RegisterReadsFollowTheMap :
    ∀ off ∈ [0x00, 0x04, 0x08, 0x0C, 0x10, 0x14, 0x18, 0x1C, 0x20, 0x24, 0x28, 0x2C, 0x30, 0x34, 0x3C],
      let s := { State.reset with fin := true, host := [HostAction.read { off := off, width := 4 }] }
      s.busy = false ∧ off % 4 = 0 ∧ off < 0x40 ∧ s.host = .read { off := off, width := 4 } :: [] ∧ s.fin = true := by
  decide

theorem witness_RegisterWritesFollowTheMap :
    ∀ off ∈ [0x04, 0x0C, 0x10, 0x14, 0x18, 0x20, 0x3C],
      let s := { State.reset with host := [HostAction.write { off := off, width := 4 } 5#32] }
      s.busy = false ∧ off % 4 = 0 ∧ off < 0x40 ∧ off ≠ 0 ∧ s.host = .write { off := off, width := 4 } 5#32 :: [] := by
  decide

theorem witness_BadRegisterAccessIsRefused :
    ∀ a ∈ [RegAccess.mk 0 2, RegAccess.mk 2 4, RegAccess.mk 0x40 4],
      (a.width ≠ 4 ∨ a.off % 4 ≠ 0 ∨ 0x40 ≤ a.off) ∧
      { State.reset with host := [.read a] }.host = .read a :: [] ∧
      { State.reset with host := [.write a 1#32] }.host = .write a 1#32 :: [] := by decide

theorem witness_BusyCoreAdmitsOnlyStatusReads :
    (feeding 0 0#64).busy = true ∧
    (∀ off ∈ [0, 4, 0x20, 0x3C], off % 4 = 0 ∧ off < 0x40 ∧
      { feeding 0 0#64 with host := [.read { off := off, width := 4 }] }.host =
        .read { off := off, width := 4 } :: []) ∧
    { feeding 0 0#64 with host := [.issue 4#32] }.host = .issue 4#32 :: [] := by decide

/-- A busy `FINISHTO` at index 2 of the buffer at 0x1000. -/
def storing : State :=
  inPhase .out 80#7 { start with
    pl := 0, scratch := { start.scratch with cmd := 0xD#32, opr := ⟨2#32, 0#32, 32#32, 0x1000#32⟩ } }

/-- The first and the last byte inside each forbidden range, and the byte after it. -/
theorem witness_BuffersAreStableDuringACommand :
    let start := (feeding 0 0#64).scratch.opr.bufbase.toNat + (feeding 0 0#64).scratch.opr.offset.toInt
    let stop := start + (feeding 0 0#64).scratch.opr.length.toInt
    let out := storing.scratch.opr.bufbase.toNat + storing.scratch.opr.offset.toInt
    ((feeding 0 0#64).busy = true ∧ decodeCmd (feeding 0 0#64).scratch.cmd = .update true) ∧
    (start ≤ (0x1000#32).toNat ∧ ((0x1000#32).toNat : Int) < stop) ∧
    (start ≤ (0x1009#32).toNat ∧ ((0x1009#32).toNat : Int) < stop) ∧ ¬ ((0x100A#32).toNat : Int) < stop ∧
    (storing.busy = true ∧ decodeCmd storing.scratch.cmd = .finishto true) ∧
    (out ≤ (0x1002#32).toNat ∧ ((0x1015#32).toNat : Int) < out + 20) ∧ ¬ out ≤ (0x1001#32).toNat := by decide

/-- Reset of an idle core, and of one that is to store a digest. -/
theorem witness_HardwareResetGivesTheResetColumn :
    let s := { storing with host := [.hardReset] }
    s.mem.wf = true ∧ s.host = .hardReset :: [] ∧
      (s.busy = true ∧ decodeCmd s.scratch.cmd = .finishto true ∧ s.scratch.opr.receives) ∧
      ¬ State.reset.busy = true := by
  unfold Operands.receives; decide

theorem witness_IllegalWordOnlySetsErr :
    (0x10#32 : Word).extractLsb' 4 28 ≠ 0#28 ∧ 6 ≤ ((0xE#32 : Word).extractLsb' 0 3).toNat := by decide

theorem witness_ArgumentErrorsAreReportedInOrder :
    let off (o : Word) := o.toInt
    off 0xFFFFFFFF#32 < 0 ∧ off 0#32 = 0 ∧ 0 < off 1#32 ∧ off 0x80000000#32 < 0 ∧
      ((10#32 : Word).toNat : Int) < off 10#32 + off 1#32 ∧ ((0x13#32 : Word).toNat : Int) < off 0#32 + 20 ∧
      (0xFFFFFFF6#32 : Word).toNat + (10#32 : Word).toNat ≤ 2 ^ 32 := by decide

theorem witness_ZeroLengthUpdateChangesNothing :
    let s := withOperands start 10#32 0#32 10#32
    s.opr.length = 0#32 ∧ 0 ≤ s.opr.offset.toInt ∧ s.opr.bufbase.toNat + s.opr.bufsize.toNat ≤ 2 ^ 32 ∧
      s.opr.offset.toInt ≤ (s.opr.bufsize.toNat : Int) := by decide

/-- The last five of ten bytes, in a block that stays open and in one that fills. -/
theorem witness_UpdateFeedsTheBytes :
    let s := withOperands start 5#32 5#32 10#32
    s.opr.feeds ∧ 0 < s.opr.len ∧ s.pl.val + s.opr.len.toNat < 64 ∧
      (withOperands { start with pl := 63 } 5#32 5#32 10#32).opr.feeds := by
  unfold Operands.feeds; decide

theorem witness_FinishtoStoresTheDigest :
    let s := withOperands start 12#32 0#32 32#32
    s.opr.receives ∧ s.mem.wf = true := by
  unfold Operands.receives; decide

theorem witness_WrappingBufferIsRefused :
    let o : Operands := ⟨0#32, 0#32, 17#32, 0xFFFFFFF0#32⟩
    2 ^ 32 < o.bufbase.toNat + o.bufsize.toNat := by decide

theorem witness_HashingAMessageInPiecesGivesItsSha1 :
    State.reset.h = ivWords ∧ State.reset.pl = 0 ∧ State.reset.tb = 0#64 ∧
      ∀ o ∈ [(⟨0#32, 4#32, 10#32, 0x1000#32⟩ : Operands), ⟨4#32, 6#32, 10#32, 0x1000#32⟩, ⟨10#32, 0#32, 10#32, 0#32⟩],
        o.feeds := by
  unfold Operands.feeds; decide

theorem witness_SplittingAnUpdateChangesNothing :
    let o : Operands := ⟨0#32, 10#32, 10#32, 0x1000#32⟩
    let o₁ : Operands := ⟨0#32, 4#32, 10#32, 0x1000#32⟩
    let o₂ : Operands := ⟨4#32, 6#32, 10#32, 0x1000#32⟩
    o.feeds ∧ o₁.feeds ∧ o₂.feeds ∧ o₁.bufbase = o.bufbase ∧ o₂.bufbase = o.bufbase ∧ o₁.off = o.off ∧
      o₂.off = o.off + o₁.len ∧ o.len = o₁.len + o₂.len := by
  unfold Operands.feeds; decide

theorem witness_FailedCommandsAreInvisible :
    isCommand (.illegal 0x6#32) = true ∧
      ∃ t, exec (.illegal 0x6#32) start = .next t ∧ t.err ≠ .ok :=
  ⟨by decide, _, rfl, by decide⟩

/-- Two states that differ in a stale cell of `PB`, in `W` and in `DOUT`. -/
theorem witness_StaleStateNeverReachesADigest :
    SameComputation start { start with
      pb := start.pb.set 2 0xFF#8, dout := iv, fin := true, dp := { start.dp with w := start.dp.w.set 79 1#32 } } := by
  unfold SameComputation; decide

theorem witness_EachRegisterHasOnlyItsWriters :
    Instr.pad ≠ .getdlen ∧ Instr.pad ≠ .reset ∧ ∃ t, exec .pad (padding .start 0) = .next t :=
  ⟨by decide, by decide, _, rfl⟩

theorem witness_RotlMovesEachBit : ∀ n ∈ [1, 5, 30, 31], ∀ i ∈ [0, 31], 0 < n ∧ n < 32 ∧ i < 32 := by decide

theorem witness_SchedExtendsTheSchedule :
    (15#7 : BitVec 7).toNat < 16 ∧ ∀ t ∈ [(16#7 : BitVec 7), 79#7], 16 ≤ t.toNat ∧ t.toNat < 80 := by decide

theorem witness_RoundsApplyTheTransform :
    ∀ t ∈ [(0#7 : BitVec 7), 19#7, 20#7, 39#7, 40#7, 59#7, 60#7, 79#7], t.toNat < 80 ∧
      (t.toNat ≤ 19 ∨ (20 ≤ t.toNat ∧ t.toNat ≤ 39) ∨ (40 ≤ t.toNat ∧ t.toNat ≤ 59) ∨ 60 ≤ t.toNat) := by decide

theorem witness_PutbyteFillsACellOrCompresses :
    State.reset.pl ≠ 63 ∧ { State.reset with pl := 62 }.pl ≠ 63 ∧ { State.reset with pl := 63 }.pl = 63 := by decide

theorem witness_AbsorbTakesTheNextInputByte :
    ∀ pl ∈ [(0 : Fin 64), 62, 63],
      (feeding pl 0#64).scratch.cmd.getLsbD 3 = true ∧ (feeding pl 0#64).scratch.opr.feeds ∧
      ((feeding pl 0#64).scratch.i.toNat : Int) < (feeding pl 0#64).scratch.opr.len := by
  unfold Operands.feeds; decide

/-- No buffer; an index before it; the first index after it. -/
theorem witness_AbsorbWithoutAnInputByteStops :
    (padding .start 0).scratch.cmd.getLsbD 3 = false ∧
    (let o : Operands := ⟨0xFFFFFFFF#32, 1#32, 10#32, 0#32⟩; o.off + 0 < 0) ∧
    (let o : Operands := ⟨10#32, 1#32, 10#32, 0#32⟩; o.size ≤ o.off + 0) := by decide

theorem witness_PadPutsTheNextPaddingByte :
    ∀ s ∈ [padding .start 0, padding .zeros 56, padding .zeros 63, padding (.length 1) 57, padding (.length 7) 63],
      s.scratch.pad ≠ .done := by decide

theorem witness_EveryStepKeepsTheInvariant : State.reset.Inv ∧ ∃ t, step State.reset = .next t := by
  refine ⟨⟨by decide, by decide, by decide, ?_⟩, _, rfl⟩
  show State.reset.countsAgree ∧ State.reset.finIsFresh
  unfold State.countsAgree State.finIsFresh
  decide

/-- The invariant also holds in the middle of an `UPDATE`, at its block's last byte. -/
theorem witness_NoStepIsStuck : (feeding 63 504#64).Inv := by
  refine ⟨by decide, by decide, by decide, ?_⟩
  show (feeding 63 504#64).updateRuns ∧ (feeding 63 504#64).countsAgree ∧ _
  unfold State.updateRuns State.countsAgree Operands.feeds
  decide

theorem witness_SequencerRefinesTheAtomicCommand :
    State.reset.busy = false ∧ State.reset.host = [] ∧ ∃ t, exec (decodeCmd 4#32) State.reset = .next t :=
  ⟨by decide, by decide, _, rfl⟩

end Sys2Proof.Tests
end

/-! ## Encoding a command and decoding it again (spec/30_encoding.md R91, R93, R96) -/

namespace Sys2Proof

/-- R96: an illegal word decodes to the illegal command that holds it. -/
theorem decodeCmd_of_illegal {w : Word} (h : isIllegalWord w = true) : decodeCmd w = .illegal w := by
  unfold decodeCmd
  split
  · rfl
  · next rsv =>
    have zero : rsvField w = 0#28 := not_not.1 rsv
    have op : 6 ≤ (opField w).toNat := by
      have e : w.extractLsb' 4 28 = 0#28 := zero
      simpa [isIllegalWord, e, opField] using h
    split
    case h_7 => rfl
    all_goals omega

/-- The word of a well-formed command decodes back to the command (R91, R93, R96). -/
theorem decodeCmd_of_encode {i : Instr} {w : Word} (wf : i.wellFormed = true) (cmd : Machine.isCommand i = true)
    (h : encode i = .cmd w) : decodeCmd w = i := by
  cases i with
  | getdlen | getblen | reset | finish => cases h; decide
  | update p | finishto p => cases h; cases p <;> decide
  | illegal v => cases h; exact decodeCmd_of_illegal wf
  | _ => cases cmd

end Sys2Proof

namespace Sys2Proof.Machine

/-! ## The step of the machine, by the host's next access (log entry 6) -/

/-- An issued word is taken off the host's list and run by an idle core (R11, R120). -/
theorem step_of_issue {s : State} {w : Word} {rest : List HostAction} (idle : s.busy = false)
    (h : s.host = .issue w :: rest) : step s = exec (decodeCmd w) { s with host := rest } := by
  simp [step, h, hostIssue, idle]

/-- With nothing on the host's list the core makes its own step. -/
theorem step_of_host_nil {s : State} (h : s.host = []) : step s = coreStep s := by
  simp [step, h]

/-- R187, the row `IDLE`: a `CMD` write to an idle core, under the launch premise of R61, is accepted. -/
theorem step_of_cmd_write {s : State} {w : Word} {rest : List HostAction} (idle : s.busy = false)
    (launch : s.launchBroken w = false) (h : s.host = .write { off := 0, width := 4 } w :: rest) :
    step s = .next (State.acceptCommand { s with host := rest } w) := by
  have launch' : State.launchBroken { s with host := rest } w = false := launch
  simp only [step, h]
  unfold hostWrite
  rw [if_neg (by decide), if_neg (by simp [idle]), if_neg (by simp [launch'])]
  rfl

/-- Settles O5: the word of a well-formed command decodes to that command. -/
theorem stepRunsTheIssuedCommand : Obligations.StepRunsTheIssuedCommand := by
  intro s i w rest wf cmd enc idle host
  rw [step_of_issue idle host, decodeCmd_of_encode wf cmd enc]

end Sys2Proof.Machine

/-! ## `COMPRESS` computes the compression function (spec/41_compression.md R150, R158, R164) -/

namespace Sys2Proof.Machine

/-! ### The whole schedule -/

@[simp] theorem extendSchedule_length (n : Nat) (ws : List Word) :
    (extendSchedule n ws).length = ws.length + n := by
  induction n generalizing ws with
  | zero => rfl
  | succ n ih => rw [extendSchedule, ih, List.length_append, List.length_singleton]; omega

/-- Extending keeps the words already there. -/
theorem extendSchedule_getD_of_lt (n : Nat) {ws : List Word} {t : Nat} (lt : t < ws.length) :
    (extendSchedule n ws).getD t 0#32 = ws.getD t 0#32 := by
  induction n generalizing ws with
  | zero => rfl
  | succ n ih =>
    rw [extendSchedule, ih (by rw [List.length_append]; omega), List.getD_append _ _ _ _ lt]

/-- Every word that extending appends follows the recurrence of R158. -/
theorem extendSchedule_getD_of_ge (n : Nat) {ws : List Word} {t : Nat} (seed : 16 ≤ ws.length)
    (ge : ws.length ≤ t) (lt : t < ws.length + n) :
    (extendSchedule n ws).getD t 0#32 =
      rotl 1 ((extendSchedule n ws).getD (t - 3) 0#32 ^^^ (extendSchedule n ws).getD (t - 8) 0#32 ^^^
        (extendSchedule n ws).getD (t - 14) 0#32 ^^^ (extendSchedule n ws).getD (t - 16) 0#32) := by
  induction n generalizing ws with
  | zero => omega
  | succ n ih =>
    have len : (ws ++ [nextWord ws]).length = ws.length + 1 := by simp
    rw [extendSchedule]
    by_cases here : t = ws.length
    · subst here
      have old {k : Nat} (hk : 0 < k ∧ k ≤ 16) :
          (extendSchedule n (ws ++ [nextWord ws])).getD (ws.length - k) 0#32 = ws.getD (ws.length - k) 0#32 := by
        rw [extendSchedule_getD_of_lt n (by omega), List.getD_append _ _ _ _ (by omega)]
      rw [extendSchedule_getD_of_lt n (by omega), List.getD_append_right _ _ _ _ le_rfl,
        old (by decide), old (by decide), old (by decide), old (by decide)]
      simp [nextWord]
    · exact ih (by omega) (by omega) (by omega)

/-- The first 16 words of the schedule are the block's (R65, R157). -/
theorem schedule_getD_of_lt {pb : Vector Byte 64} {t : Nat} (lt : t < 16) :
    (schedule pb).getD t 0#32 = blockWord pb ⟨t, lt⟩ := by
  rw [schedule, extendSchedule_getD_of_lt 64 (by rw [List.length_ofFn]; exact lt), List.getD_eq_getElem?_getD,
    List.getElem?_ofFn, dif_pos lt]
  rfl

/-- The other words of the schedule follow the recurrence (R158). -/
theorem schedule_getD_of_ge {pb : Vector Byte 64} {t : Nat} (ge : 16 ≤ t) (lt : t < 80) :
    (schedule pb).getD t 0#32 =
      rotl 1 ((schedule pb).getD (t - 3) 0#32 ^^^ (schedule pb).getD (t - 8) 0#32 ^^^
        (schedule pb).getD (t - 14) 0#32 ^^^ (schedule pb).getD (t - 16) 0#32) := by
  unfold schedule
  exact extendSchedule_getD_of_ge 64 (by simp) (by simpa using ge) (by simpa using lt)

/-! ### The datapath, turn by turn -/

/-- `T` after a turn. -/
@[simp] theorem Datapath.turn_t (d : Datapath) : d.turn.t = d.t + 1#7 := by
  have kept : (if 16 ≤ d.t.toNat then d.sched d.t.toNat else d).t = d.t := by split <;> rfl
  unfold Datapath.turn Datapath.stageRound
  split_ifs <;> simp_all

theorem Datapath.turns_succ (n : Nat) (d : Datapath) : Datapath.turns (n + 1) d = (Datapath.turns n d).turn := by
  induction n generalizing d with
  | zero => rfl
  | succ n ih => exact ih d.turn

theorem stageOf_of_lt_20 {t : Nat} (lt : t < 20) : stageOf t = (ch, k0) := by
  rw [stageOf, if_pos (by omega)]

theorem stageOf_of_lt_40 {t : Nat} (ge : 20 ≤ t) (lt : t < 40) : stageOf t = (parity, k1) := by
  rw [stageOf, if_neg (by omega), if_pos (by omega)]

theorem stageOf_of_lt_60 {t : Nat} (ge : 40 ≤ t) (lt : t < 60) : stageOf t = (maj, k2) := by
  rw [stageOf, if_neg (by omega), if_neg (by omega), if_pos (by omega)]

theorem stageOf_of_ge_60 {t : Nat} (ge : 60 ≤ t) (lt : t < 80) : stageOf t = (parity, k3) := by
  rw [stageOf, if_neg (by omega), if_neg (by omega), if_neg (by omega)]

/-- The stage of `T` chosen by comparison is the one chosen by division (R156). -/
theorem Datapath.stageRound_eq {d : Datapath} (lt : d.t.toNat < 80) :
    d.stageRound = d.round (stageOf d.t.toNat).1 (stageOf d.t.toNat).2 d.t := by
  unfold Datapath.stageRound
  by_cases h20 : d.t.toNat < 20
  · rw [if_pos h20, stageOf_of_lt_20 h20]
  · rw [if_neg h20]
    by_cases h40 : d.t.toNat < 40
    · rw [if_pos h40, stageOf_of_lt_40 (by omega) h40]
    · rw [if_neg h40]
      by_cases h60 : d.t.toNat < 60
      · rw [if_pos h60, stageOf_of_lt_60 (by omega) h60]
      · rw [if_neg h60, stageOf_of_ge_60 (by omega) lt]

/-- The working registers before round `n` of a block, with the whole schedule at hand. -/
def roundsFn (h : Vector Word 5) (pb : Vector Byte 64) (n : Nat) : Vector Word 5 :=
  (List.range n).foldl (fun v t => roundWords (stageOf t).1 (stageOf t).2 ((schedule pb).getD t 0#32) v) h

theorem compressFn_eq (h : Vector Word 5) (pb : Vector Byte 64) :
    compressFn h pb = addWords h (roundsFn h pb 80) := rfl

theorem roundsFn_succ (h : Vector Word 5) (pb : Vector Byte 64) (n : Nat) :
    roundsFn h pb (n + 1) =
      roundWords (stageOf n).1 (stageOf n).2 ((schedule pb).getD n 0#32) (roundsFn h pb n) := by
  simp [roundsFn, List.range_succ]

/-- The datapath before round `n` of the block: `T` is `n`, `V` went through `n` rounds, and the first `m` words
of `W` are those of the whole schedule. -/
structure Datapath.AtRound (h : Vector Word 5) (pb : Vector Byte 64) (n m : Nat) (d : Datapath) : Prop where
  t_eq : d.t.toNat = n
  v_eq : d.v = roundsFn h pb n
  w_eq : ∀ j < m, wordAt d.w j = (schedule pb).getD j 0#32

theorem Datapath.load_atRound (h : Vector Word 5) (pb : Vector Byte 64) (d : Datapath) :
    (d.load h pb).AtRound h pb 0 16 := by
  refine ⟨rfl, rfl, fun j lt => ?_⟩
  have lt80 : j < 80 := by omega
  rw [schedule_getD_of_lt lt]
  simp [wordAt, Datapath.load, lt, lt80]

theorem wordAt_set_same {w : Vector Word 80} {t : Nat} {x : Word} (lt : t < 80) :
    wordAt (w.setIfInBounds t x) t = x := by
  simp [wordAt, lt]

theorem wordAt_set_other {w : Vector Word 80} {t j : Nat} {x : Word} (ne : t ≠ j) :
    wordAt (w.setIfInBounds t x) j = wordAt w j := by
  simp [wordAt, ne]

section
variable {h : Vector Word 5} {pb : Vector Byte 64} {n m : Nat} {d : Datapath}

/-- R158: `SCHED` adds the next word of the whole schedule, which it computes from words already there. -/
theorem Datapath.AtRound.sched (ge : 16 ≤ n) (lt : n < 80) (before : d.AtRound h pb n n) :
    (d.sched n).AtRound h pb n (n + 1) := by
  refine ⟨before.t_eq, before.v_eq, fun j hj => ?_⟩
  by_cases new : n = j
  · subst new
    rw [Datapath.sched, wordAt_set_same lt, schedWord, schedule_getD_of_ge ge lt, before.w_eq _ (by omega),
      before.w_eq _ (by omega), before.w_eq _ (by omega), before.w_eq _ (by omega)]
  · rw [Datapath.sched, wordAt_set_other new]
    exact before.w_eq j (by omega)

/-- R159 to R162: the round of `T = n`, once the schedule holds word `n`. -/
theorem Datapath.AtRound.stageRound (lt : n < 80) (have_n : n < m) (before : d.AtRound h pb n m) :
    d.stageRound.AtRound h pb (n + 1) m := by
  obtain ⟨ht, hv, hw⟩ := before
  rw [Datapath.stageRound_eq (by omega), ht]
  refine ⟨?_, ?_, hw⟩
  · rw [Datapath.round_t, BitVec.toNat_add, ht]
    exact Nat.mod_eq_of_lt (show n + 1 < 128 by omega)
  · rw [Datapath.round_v, ht, hw n have_n, hv, roundsFn_succ]

/-- One turn of the loop goes from round to round (R164). -/
theorem Datapath.AtRound.turn (lt : n < 80) (before : d.AtRound h pb n (max 16 n)) :
    d.turn.AtRound h pb (n + 1) (max 16 (n + 1)) := by
  unfold Datapath.turn
  rw [before.t_eq]
  by_cases ge : 16 ≤ n
  · rw [if_pos ge, max_eq_right (by omega)]
    rw [max_eq_right ge] at before
    exact (before.sched ge lt).stageRound lt (by omega)
  · rw [if_neg ge, max_eq_left (by omega)]
    rw [max_eq_left (by omega)] at before
    exact before.stageRound lt (by omega)

end

theorem Datapath.turns_atRound (h : Vector Word 5) (pb : Vector Byte 64) (d : Datapath) {n : Nat} (le : n ≤ 80) :
    (Datapath.turns n (d.load h pb)).AtRound h pb n (max 16 n) := by
  induction n with
  | zero => exact d.load_atRound h pb
  | succ n ih =>
    rw [Datapath.turns_succ]
    exact (ih (by omega)).turn (by omega)

/-! ### The whole operation -/

/-- R164: `COMPRESS` leaves `T = 80`. -/
theorem State.compress_dp_t (s : State) : s.compress.dp.t = 80#7 := by
  rw [State.compress_dp]
  exact BitVec.eq_of_toNat_eq (s.dp.turns_atRound s.h s.pb (n := 80) le_rfl).t_eq

/-- R150: the hash words after `COMPRESS` are the compression function of hash and block. -/
theorem State.compress_h_eq_compressFn (s : State) : s.compress.h = compressFn s.h s.pb := by
  rw [State.compress_h, compressFn_eq]
  exact congrArg (addWords s.h) (s.dp.turns_atRound s.h s.pb (n := 80) le_rfl).v_eq

end Sys2Proof.Machine

/-! ## The digest state after a sequence of bytes (spec/10_state.md R26, 42_buffering_padding.md R181 to R184) -/

namespace Sys2Proof.Machine

/-! ### Blocks of a byte string -/

/-- Appended bytes leave a block that is already whole as it is. -/
theorem blockAt_append {bs cs : List Byte} {k : Nat} (le : 64 * (k + 1) ≤ bs.length) :
    blockAt (bs ++ cs) k = blockAt bs k := by
  ext i lt : 1
  have inside : 64 * k + i < bs.length := by omega
  simp [blockAt, List.getElem?_append_left inside]

/-- Block `k` is the first block of what follows the blocks before it. -/
theorem blockAt_eq_drop (bs : List Byte) (k : Nat) : blockAt bs k = blockAt (bs.drop (64 * k)) 0 := by
  ext i lt : 1
  simp [blockAt]

theorem compressBlocks_of_lt {h : Vector Word 5} {bs : List Byte} (lt : bs.length < 64) :
    compressBlocks h bs = h := by
  rw [compressBlocks, Nat.div_eq_of_lt lt]
  rfl

/-- Bytes appended to a string leave its whole blocks as they are. -/
theorem foldl_compressFn_append (h : Vector Word 5) (bs cs : List Byte) :
    (List.range (bs.length / 64)).foldl (fun h k => compressFn h (blockAt (bs ++ cs) k)) h =
      compressBlocks h bs :=
  List.foldl_ext _ _ _ fun h' k hk => by
    have lt : k < bs.length / 64 := List.mem_range.1 hk
    rw [blockAt_append (by omega)]

theorem compressBlocks_snoc_of_ne {h : Vector Word 5} {bs : List Byte} {b : Byte} (ne : bs.length % 64 ≠ 63) :
    compressBlocks h (bs ++ [b]) = compressBlocks h bs := by
  rw [compressBlocks, List.length_append, List.length_singleton,
    show (bs.length + 1) / 64 = bs.length / 64 by omega, foldl_compressFn_append]

theorem compressBlocks_snoc_of_eq {h : Vector Word 5} {bs : List Byte} {b : Byte} (eq : bs.length % 64 = 63) :
    compressBlocks h (bs ++ [b]) =
      compressFn (compressBlocks h bs) (blockAt (bs.drop (64 * (bs.length / 64)) ++ [b]) 0) := by
  rw [compressBlocks, List.length_append, List.length_singleton,
    show (bs.length + 1) / 64 = bs.length / 64 + 1 by omega, List.range_succ, List.foldl_append,
    foldl_compressFn_append, List.foldl_cons, List.foldl_nil, blockAt_eq_drop,
    List.drop_append_of_le_length (by omega)]

/-! ### The pending bytes -/

@[simp] theorem State.pending_length (s : State) : s.pending.length = s.pl.val := by
  simp [State.pending, s.pl.isLt.le]

theorem val_add_one_of_ne {pl : Fin 64} (ne : pl ≠ 63) : (pl + 1).val = pl.val + 1 := by
  have lt : pl.val < 63 := by
    have := pl.isLt
    have : pl.val ≠ 63 := fun e => ne (Fin.ext e)
    omega
  rw [Fin.val_add]
  exact Nat.mod_eq_of_lt (show pl.val + 1 < 64 by omega)

/-- The cells up to the one just written. -/
theorem State.take_putCell (s : State) (b : Byte) :
    (s.putCell b).pb.toList.take (s.pl.val + 1) = s.pending ++ [b] := by
  have len : s.pl.val < s.pb.toList.length := by simp
  rw [State.putCell_pb, Vector.toList_set, List.take_add_one, List.take_set_of_le le_rfl,
    List.getElem?_set_self len]
  rfl

theorem State.pending_putByte_of_ne {s : State} {b : Byte} (ne : s.pl ≠ 63) :
    (s.putByte b).pending = s.pending ++ [b] := by
  rw [State.putByte_of_ne ne, State.pending, val_add_one_of_ne ne]
  exact s.take_putCell b

theorem State.pending_putByte_of_eq {s : State} {b : Byte} (eq : s.pl = 63) : (s.putByte b).pending = [] := by
  rw [State.putByte_of_eq eq, State.pending]
  rfl

/-- The block that byte `b` fills, as a byte string. -/
theorem State.blockAt_of_full {s : State} {b : Byte} (eq : s.pl = 63) :
    blockAt (s.pending ++ [b]) 0 = (s.putCell b).pb := by
  rw [← s.take_putCell b, eq]
  ext i lt : 1
  simp [blockAt]

theorem State.putByte_h_of_ne {s : State} {b : Byte} (ne : s.pl ≠ 63) : (s.putByte b).h = s.h := by
  rw [State.putByte_of_ne ne]
  rfl

theorem State.putByte_h_of_eq {s : State} {b : Byte} (eq : s.pl = 63) :
    (s.putByte b).h = compressFn s.h (blockAt (s.pending ++ [b]) 0) := by
  rw [State.blockAt_of_full eq, State.putByte_of_eq eq]
  exact (s.putCell b).compress_h_eq_compressFn

/-! ### The byte string a state stands for -/

/-- R26 items 3 and 4: `s` is where the byte string `bs` leads from the hash words `h`: its whole blocks are
compressed, the rest is pending. -/
structure State.Stands (h : Vector Word 5) (bs : List Byte) (s : State) : Prop where
  h_eq : s.h = compressBlocks h bs
  pl_eq : s.pl.val = bs.length % 64
  pending_eq : s.pending = bs.drop (64 * (bs.length / 64))

/-- Every state stands where its own pending bytes lead. -/
theorem State.stands_pending (s : State) : s.Stands s.h s.pending := by
  have lt : s.pending.length < 64 := by simp
  refine ⟨(compressBlocks_of_lt lt).symm, ?_, ?_⟩
  · rw [Nat.mod_eq_of_lt lt, s.pending_length]
  · rw [Nat.div_eq_of_lt lt]
    rfl

theorem State.Stands.putByte {h : Vector Word 5} {bs : List Byte} {s : State} (st : s.Stands h bs) (b : Byte) :
    (s.putByte b).Stands h (bs ++ [b]) := by
  have len : (bs ++ [b]).length = bs.length + 1 := by simp
  have hpl := st.pl_eq
  have pl_next : (s.putByte b).pl.val = (bs ++ [b]).length % 64 := by
    rw [State.putByte_pl_val, len]
    omega
  by_cases full : s.pl = 63
  · have eq : bs.length % 64 = 63 := by rw [← hpl, full]; rfl
    refine ⟨?_, pl_next, ?_⟩
    · rw [State.putByte_h_of_eq full, compressBlocks_snoc_of_eq eq, st.h_eq, st.pending_eq]
    · rw [State.pending_putByte_of_eq full, List.drop_eq_nil_of_le (by omega)]
  · have ne : bs.length % 64 ≠ 63 := fun e => full (Fin.ext (hpl.trans e))
    refine ⟨?_, pl_next, ?_⟩
    · rw [State.putByte_h_of_ne full, compressBlocks_snoc_of_ne ne, st.h_eq]
    · rw [State.pending_putByte_of_ne full, st.pending_eq, len,
        show (bs.length + 1) / 64 = bs.length / 64 by omega, List.drop_append_of_le_length (by omega)]

theorem State.Stands.putAll {h : Vector Word 5} {bs : List Byte} {s : State} (st : s.Stands h bs) (cs : List Byte) :
    (s.putAll cs).Stands h (bs ++ cs) := by
  induction cs generalizing bs s with
  | nil => simpa [State.putAll_nil] using st
  | cons c cs ih => simpa [State.putAll_cons] using ih (st.putByte c)

theorem State.Stands.absorb {h : Vector Word 5} {bs : List Byte} {s : State} (st : s.Stands h bs) (b : Byte) :
    (s.absorb b).Stands h (bs ++ [b]) :=
  State.Stands.putByte (s := { s with tb := s.tb + 8#64 }) ⟨st.h_eq, st.pl_eq, st.pending_eq⟩ b

theorem State.Stands.absorbAll {h : Vector Word 5} {bs : List Byte} {s : State} (st : s.Stands h bs)
    (cs : List Byte) : (s.absorbAll cs).Stands h (bs ++ cs) := by
  induction cs generalizing bs s with
  | nil => simpa [State.absorbAll_nil] using st
  | cons c cs ih => simpa [State.absorbAll_cons] using ih (st.absorb c)

/-- R182: `TB` counts the bits modulo 2^64. -/
theorem State.absorbAll_tb (s : State) (bs : List Byte) :
    (s.absorbAll bs).tb = s.tb + BitVec.ofNat 64 (8 * bs.length) := by
  induction bs generalizing s with
  | nil => simp [State.absorbAll_nil]
  | cons b bs ih =>
    rw [State.absorbAll_cons, ih, State.absorb_tb, List.length_cons, Nat.mul_succ, Nat.add_comm, BitVec.ofNat_add,
      BitVec.add_assoc]

/-! ### `PAD` in closed form (R184) -/

/-- Step 2 of `PAD`: the zeros that bring `PL` to 56. -/
theorem State.padZeros_eq_putAll {n : Nat} {s : State} (enough : (120 - s.pl.val) % 64 ≤ n) :
    State.padZeros n s = s.putAll (List.replicate ((120 - s.pl.val) % 64) 0#8) := by
  have lt := s.pl.isLt
  induction n generalizing s with
  | zero =>
    rw [Nat.le_zero.1 enough]
    rfl
  | succ n ih =>
    unfold State.padZeros
    by_cases at56 : s.pl = 56
    · rw [if_pos at56, at56]
      rfl
    · have ne : s.pl.val ≠ 56 := fun e => at56 (Fin.ext e)
      have next := s.putByte_pl_val 0#8
      rw [if_neg at56, ih (by omega) (Fin.isLt _),
        show (120 - s.pl.val) % 64 = (120 - (s.putByte 0#8).pl.val) % 64 + 1 by omega, List.replicate_succ,
        State.putAll_cons]

/-- R184: `PAD` puts the padding bytes of its closed form. -/
theorem State.padAll_eq_putAll (s : State) : s.padAll = s.putAll (padBytes s.pl.val s.tb) := by
  have lt := s.pl.isLt
  have next := s.putByte_pl_val 0x80#8
  rw [State.padAll, State.padZeros_eq_putAll (by omega), State.padLength, State.putAll_tb, State.putByte_tb,
    ← State.putAll_append, padBytes, State.putAll_cons,
    show (119 - s.pl.val) % 64 = (120 - (s.putByte 0x80#8).pl.val) % 64 by omega]

/-! ### Commands -/

/-- An `UPDATE` whose checks pass, of any length: the state it ends in has absorbed its input bytes (R124). -/
theorem exec_update_of_feeds {s : State} (feeds : s.opr.feeds) :
    ∃ t, exec (.update true) s = .next t ∧ t.mem = s.mem ∧
      ∃ f : Bool, t = ({ s with fin := f }.absorbAll (inputBytes s.opr s.mem)).complete .ok := by
  obtain ⟨off, len, bound, fits⟩ := feeds
  by_cases pos : 0 < s.opr.len
  · have run : updateCheck true s.opr = .run := updateCheck_eq_run.2 ⟨rfl, ⟨off, len, bound, fits⟩, pos⟩
    refine ⟨_, ?_, ?_, false, rfl⟩
    · simp only [exec, execUpdate, run]
    · simp
  · have zero : s.opr.len = 0 := by omega
    have nothing : updateCheck true s.opr = .nothing :=
      updateCheck_eq_nothing.2 ⟨Operands.launches_iff.2 fun _ => fits, off, zero, fun _ => by omega⟩
    refine ⟨s.complete .ok, ?_, rfl, s.fin, ?_⟩
    · simp only [exec, execUpdate, nothing]
    · rw [inputBytes, zero]
      rfl

/-- R125: the digest of a `FINISH` is the compression of the message and its padding. -/
theorem exec_finish_digest {h : Vector Word 5} {bs : List Byte} {s : State} (st : s.Stands h bs) :
    ∃ u, exec .finish s = .next u ∧ u.dout = compressBlocks h (bs ++ padBytes s.pl.val s.tb) := by
  refine ⟨s.finished.finishEnd, rfl, ?_⟩
  rw [State.finishEnd, State.complete_dout, State.reinit_dout, State.finished, State.serialise_dout,
    State.padAll_eq_putAll]
  exact (st.putAll _).h_eq

/-! ### A message in pieces -/

/-- `s` holds the message `m` of a digest under way: its bytes, and its bits in `TB`. -/
def State.HoldsMessage (m : List Byte) (s : State) : Prop :=
  s.Stands ivWords m ∧ s.tb = BitVec.ofNat 64 (8 * m.length)

/-- The `UPDATE`s of a message complete in turn and hold the message with their bytes appended. -/
theorem updates_holdMessage (os : List Operands) (feeds : ∀ o ∈ os, o.feeds) {m : List Byte} {s : State}
    (holds : s.HoldsMessage m) :
    ∃ t, updates os s = .next t ∧ t.HoldsMessage (m ++ os.flatMap fun o => inputBytes o s.mem) := by
  induction os generalizing m s with
  | nil => exact ⟨s, rfl, by simpa using holds⟩
  | cons o os ih =>
    obtain ⟨t, ht, mem, f, t_eq⟩ := exec_update_of_feeds (s := { s with opr := o }) (feeds o List.mem_cons_self)
    have step : t.HoldsMessage (m ++ inputBytes o s.mem) := by
      obtain ⟨st, tb⟩ := holds
      have st' : State.Stands ivWords m { s with opr := o, fin := f } := ⟨st.h_eq, st.pl_eq, st.pending_eq⟩
      have all := st'.absorbAll (inputBytes o s.mem)
      refine t_eq ▸ ⟨⟨all.h_eq, all.pl_eq, all.pending_eq⟩, ?_⟩
      rw [State.complete_tb, State.absorbAll_tb, List.length_append, Nat.mul_add, BitVec.ofNat_add, ← tb]
    obtain ⟨u, hu, end_holds⟩ := ih (fun o' ho' => feeds o' (List.mem_cons_of_mem _ ho')) step
    refine ⟨u, ?_, ?_⟩
    · rw [updates, ht, andThen_next, hu]
    · simpa [mem] using end_holds

/-- Settles O26: `UPDATE`s keep "the state holds the message so far", and the padding of a state that holds a
message is the padding SHA-1 appends to it. -/
theorem hashingAMessageInPiecesGivesItsSha1 : Obligations.HashingAMessageInPiecesGivesItsSha1 := by
  intro s os h pl tb feeds
  have empty : s.HoldsMessage [] := by
    have none : s.pending = [] := by simp [State.pending, pl]
    exact ⟨h ▸ none ▸ s.stands_pending, tb⟩
  obtain ⟨t, ht, st, t_tb⟩ := updates_holdMessage os feeds empty
  obtain ⟨u, hu, dout⟩ := exec_finish_digest st
  refine ⟨t, u, ht, hu, ?_⟩
  rw [dout, st.pl_eq, t_tb]
  rfl

end Sys2Proof.Machine

/-! ## One step of the sequencer, phase by phase (spec/42_buffering_padding.md R187) -/

namespace Sys2Proof.Machine

/-! ### Runs of the machine -/

/-- `n` steps of the machine. -/
def steps : Nat → State → Result
  | 0, s => .next s
  | n + 1, s => andThen (step s) (steps n)

/-- A run of any machine goes on after a step that answers a next state. -/
theorem run_succ_of_step {M : Host.Core} {s t : M.State} (h : M.step s = .next t) (n : Nat) :
    M.run (n + 1) s = M.run n t := by
  rw [Host.Core.run, h]

/-- What `n` steps answer is what the host reads from a run of `n` steps. -/
theorem core_run_of_steps {n : Nat} {s t : State} (h : steps n s = .next t) : Sys2Proof.core.run n s = .next t := by
  induction n generalizing s with
  | zero => exact h
  | succ n ih =>
    obtain ⟨u, hu, rest⟩ := andThen_eq_next.1 h
    exact (run_succ_of_step (M := Sys2Proof.core) hu n).trans (ih rest)

theorem steps_one (s : State) : steps 1 s = step s := by
  show andThen (step s) Host.Outcome.next = step s
  cases step s <;> rfl

theorem steps_succ_of_step {s t : State} (h : step s = .next t) (n : Nat) : steps (n + 1) s = steps n t := by
  rw [steps, h, andThen_next]

theorem steps_add_of_steps {m : Nat} {s t : State} (h : steps m s = .next t) (n : Nat) :
    steps (m + n) s = steps n t := by
  induction m generalizing s with
  | zero => cases h; rw [Nat.zero_add]
  | succ m ih =>
    obtain ⟨u, hu, rest⟩ := andThen_eq_next.1 h
    rw [Nat.succ_add, steps_succ_of_step hu, ih rest]

/-! ### The busy state of a command under way -/

/-- `s` while the sequencer stands in phase `p` with scratch `c`: beside them a command under way differs from its
atomic view in `BUSY` only. -/
def State.walking (s : State) (p : Phase) (c : Scratch) : State := { s with busy := true, phase := p, scratch := c }

section
variable (s : State) (p : Phase) (c : Scratch)

@[simp] theorem State.walking_h : (s.walking p c).h = s.h := rfl
@[simp] theorem State.walking_pb : (s.walking p c).pb = s.pb := rfl
@[simp] theorem State.walking_pl : (s.walking p c).pl = s.pl := rfl
@[simp] theorem State.walking_tb : (s.walking p c).tb = s.tb := rfl
@[simp] theorem State.walking_dp : (s.walking p c).dp = s.dp := rfl
@[simp] theorem State.walking_phase : (s.walking p c).phase = p := rfl
@[simp] theorem State.walking_scratch : (s.walking p c).scratch = c := rfl
@[simp] theorem State.walking_dout : (s.walking p c).dout = s.dout := rfl
@[simp] theorem State.walking_mem : (s.walking p c).mem = s.mem := rfl
@[simp] theorem State.walking_host : (s.walking p c).host = s.host := rfl

/-- The end of a command hides how it was walked (R120). -/
@[simp] theorem State.complete_walking (e : ErrCode) : (s.walking p c).complete e = s.complete e := rfl

@[simp] theorem State.finishEnd_walking : (s.walking p c).finishEnd = s.finishEnd := rfl

theorem State.acceptCommand_eq_walking (w : Word) :
    s.acceptCommand w = s.walking .check { s.scratch with cmd := w, opr := s.opr } := rfl

/-- A byte that does not fill the block is put in one step. -/
theorem State.putInStep_walking_of_ne {s : State} (b : Byte) (r : Resume) (ne : s.pl ≠ 63) :
    (s.walking p c).putInStep b r = (s.putByte b).walking p c := by
  rw [State.putInStep, State.walking_pl, if_neg ne, State.putByte_of_ne ne]
  rfl

/-- The byte that fills the block goes into its cell, and the block is compressed next. -/
theorem State.putInStep_walking_of_eq {s : State} (b : Byte) (r : Resume) (eq : s.pl = 63) :
    (s.walking p c).putInStep b r = (s.putCell b).walking .loadw { c with resume := r } := by
  rw [State.putInStep, State.walking_pl, if_pos eq]
  rfl

end

/-! ### What the sequencer word selects (30_encoding.md R99) -/

section
variable {s : State}

theorem decodeSeq_of_check (h : s.phase = .check) : decodeSeq s.seqWord = .error .check := by
  simp [State.seqWord, decodeSeq, h, Phase.code]

theorem decodeSeq_of_feed (h : s.phase = .feed) : decodeSeq s.seqWord = .ok [.absorb] := by
  simp [State.seqWord, decodeSeq, h, Phase.code]

theorem decodeSeq_of_loadw (h : s.phase = .loadw) : decodeSeq s.seqWord = .ok [.loadw] := by
  simp [State.seqWord, decodeSeq, h, Phase.code]

theorem decodeSeq_of_round (h : s.phase = .round) : decodeSeq s.seqWord = roundOps s.dp.t := by
  simp [State.seqWord, decodeSeq, h, Phase.code]

theorem decodeSeq_of_addback (h : s.phase = .addback) : decodeSeq s.seqWord = .ok [.addback] := by
  simp [State.seqWord, decodeSeq, h, Phase.code]

theorem decodeSeq_of_pad (h : s.phase = .pad) : decodeSeq s.seqWord = .ok [.pad] := by
  simp [State.seqWord, decodeSeq, h, Phase.code]

theorem decodeSeq_of_out (h : s.phase = .out) : decodeSeq s.seqWord = .ok [.serialise, .reinit] := by
  simp [State.seqWord, decodeSeq, h, Phase.code]

theorem step_of_ops {ops : List Instr} (host : s.host = []) (h : decodeSeq s.seqWord = .ok ops) :
    step s = runOps ops s := by
  rw [step_of_host_nil host, coreStep, h]

theorem step_of_check (host : s.host = []) (h : s.phase = .check) : step s = checkStep s := by
  rw [step_of_host_nil host, coreStep, decodeSeq_of_check h]

/-- A step that selects one micro-operation. -/
theorem step_of_op {t : State} {i : Instr} (host : s.host = []) (h : decodeSeq s.seqWord = .ok [i])
    (run : exec i s = .next t) : step s = .next (seqControl i t) := by
  rw [step_of_ops host h, runOps_cons, run]
  rfl

end

/-! ### The rounds -/

/-- The round instruction of the stage of `t` (R99, R156). -/
def stageInstr (t : BitVec 7) : Instr :=
  if t.toNat < 20 then .round1 t
  else if t.toNat < 40 then .round2 t
  else if t.toNat < 60 then .round3 t
  else .round4 t

theorem roundOps_of_lt {t : BitVec 7} (lt : t.toNat < 80) :
    roundOps t = .ok (if t.toNat < 16 then [stageInstr t] else [.sched t, stageInstr t]) := by
  unfold roundOps stageInstr
  by_cases h16 : t.toNat < 16
  · rw [if_pos h16, if_pos h16, if_pos (by omega)]
  · rw [if_neg h16, if_neg h16]
    split_ifs <;> rfl

/-- The round of the stage of `T`, as a step. -/
theorem exec_stageInstr {s : State} {t : BitVec 7} (ht : s.dp.t = t) (lt : t.toNat < 80) :
    exec (stageInstr t) s = .next { s with
      dp := s.dp.stageRound, phase := if t.toNat = 79 then .addback else s.phase } := by
  unfold stageInstr Datapath.stageRound
  rw [ht]
  by_cases h20 : t.toNat < 20
  · rw [if_pos h20, if_pos h20, if_neg (by omega)]
    exact roundStep_of_lt lt
  · rw [if_neg h20, if_neg h20]
    by_cases h40 : t.toNat < 40
    · rw [if_pos h40, if_pos h40, if_neg (by omega)]
      exact roundStep_of_lt lt
    · rw [if_neg h40, if_neg h40]
      by_cases h60 : t.toNat < 60
      · rw [if_pos h60, if_pos h60, if_neg (by omega)]
        exact roundStep_of_lt lt
      · rw [if_neg h60, if_neg h60]
        show execRound4 t s = _
        rw [execRound4, roundStep_of_lt lt, andThen_next]
        split <;> rfl

/-- The sequencer adds nothing to a round. -/
theorem seqControl_stageInstr (t : BitVec 7) (s : State) : seqControl (stageInstr t) s = s := by
  unfold stageInstr
  split_ifs <;> rfl

theorem exec_sched_of_ge {s : State} {t : BitVec 7} (ge : 16 ≤ t.toNat) (lt : t.toNat < 80) :
    exec (.sched t) s = .next { s with dp := s.dp.sched t.toNat } := by
  show execSched t s = _
  rw [execSched, if_neg (by omega), if_pos (show t.toNat < Config.nRounds from lt)]

/-- R99, R164: a step in `ROUND` is one turn of the loop of `COMPRESS`. -/
theorem step_of_round {s : State} (host : s.host = []) (h : s.phase = .round) (lt : s.dp.t.toNat < 80) :
    step s = .next { s with dp := s.dp.turn, phase := if s.dp.t.toNat = 79 then .addback else s.phase } := by
  have word := (decodeSeq_of_round h).trans (roundOps_of_lt lt)
  unfold Datapath.turn
  by_cases early : s.dp.t.toNat < 16
  · rw [if_pos early] at word
    rw [if_neg (by omega), step_of_op host word (exec_stageInstr rfl lt), seqControl_stageInstr]
  · rw [if_neg early] at word
    have scheduled : exec (stageInstr s.dp.t) { s with dp := s.dp.sched s.dp.t.toNat } = .next { s with
        dp := (s.dp.sched s.dp.t.toNat).stageRound,
        phase := if s.dp.t.toNat = 79 then .addback else s.phase } := exec_stageInstr rfl lt
    rw [if_pos (by omega), step_of_ops host word, runOps_cons, exec_sched_of_ge (by omega) lt, andThen_next,
      runOps_cons]
    show andThen (exec (stageInstr s.dp.t) { s with dp := s.dp.sched s.dp.t.toNat }) _ = _
    rw [scheduled, andThen_next, runOps_nil, seqControl_stageInstr]

/-! ### One block: `LOADW`, the rounds, `ADDBACK` -/

section
variable {s : State} (host : s.host = []) (c : Scratch)
include host

theorem step_loadw : step (s.walking .loadw c) = .next (s.loadWords.walking .round c) :=
  step_of_op (s := s.walking .loadw c) host (decodeSeq_of_loadw rfl) rfl

theorem step_addback :
    step (s.walking .addback c) = .next (s.addBack.walking c.resume.phase c).blockDone :=
  step_of_op (s := s.walking .addback c) host (decodeSeq_of_addback rfl) rfl

end

/-- The rounds that remain from `T` on, with the last of which the sequencer enters `ADDBACK`. -/
theorem steps_rounds {s : State} (host : s.host = []) (c : Scratch) {n : Nat} (rest : s.dp.t.toNat + (n + 1) = 80) :
    steps (n + 1) (s.walking .round c) =
      .next (State.walking { s with dp := Datapath.turns (n + 1) s.dp } .addback c) := by
  induction n generalizing s with
  | zero =>
    rw [steps_one, step_of_round (s := s.walking .round c) host rfl (show s.dp.t.toNat < 80 by omega),
      State.walking_dp, if_pos (by omega)]
    rfl
  | succ n ih =>
    have next : s.dp.turn.t.toNat + (n + 1) = 80 := by
      rw [Datapath.turn_t, BitVec.toNat_add, show (1#7).toNat = 1 from rfl]
      omega
    have turn : step (s.walking .round c) = .next (State.walking { s with dp := s.dp.turn } .round c) := by
      rw [step_of_round (s := s.walking .round c) host rfl (show s.dp.t.toNat < 80 by omega),
        State.walking_dp, if_neg (by omega)]
      rfl
    rw [steps_succ_of_step turn, ih (s := { s with dp := s.dp.turn }) host next]
    rfl

/-- R164, R250: the 82 steps of a full block are `COMPRESS` and what the sequencer does at its end. -/
theorem steps_block {s : State} (host : s.host = []) (c : Scratch) :
    steps 82 (s.walking .loadw c) = .next (s.compress.walking c.resume.phase c).blockDone := by
  have rounds := steps_rounds (s := s.loadWords) host c (n := 79) rfl
  rw [steps_succ_of_step (step_loadw host c) 81, steps_add_of_steps rounds 1, steps_one]
  exact step_addback (s := { s with dp := Datapath.turns 80 (s.dp.load s.h s.pb) }) host c

end Sys2Proof.Machine

/-! ## The sequencer walks a command to the end of its atomic transition (spec/42_buffering_padding.md R187,
70_reset_and_hazards.md R250) -/

namespace Sys2Proof.Machine

/-! ### What a number of bytes costs -/

/-- R250: the steps of `n` bytes put from `PL = p` on, with the 82 of each block they fill. -/
def bytesCost (p n : Nat) : Nat := n + 82 * ((p + n) / 64)

theorem bytesCost_one_of_ne {pl : Fin 64} (ne : pl ≠ 63) : bytesCost pl.val 1 = 1 := by
  have lt := (pl + 1).isLt
  rw [val_add_one_of_ne ne] at lt
  rw [bytesCost, Nat.div_eq_of_lt lt]

theorem bytesCost_one_of_eq {pl : Fin 64} (eq : pl = 63) : bytesCost pl.val 1 = 82 + 1 := by
  rw [eq]
  rfl

theorem bytesCost_succ (pl : Fin 64) (n : Nat) :
    bytesCost pl.val (n + 1) = bytesCost pl.val 1 + bytesCost (pl + 1).val n := by
  have lt := pl.isLt
  have step : (pl + 1).val = (pl.val + 1) % 64 := rfl
  unfold bytesCost
  omega

/-! ### The bytes of an `UPDATE` -/

/-- The input bytes from index `i` of the message part on. -/
theorem inputBytes_drop {o : Operands} {m : Memory} {i : Nat} (lt : i < o.len.toNat) :
    (inputBytes o m).drop i = memRead o m (o.off.toNat + i) :: (inputBytes o m).drop (i + 1) := by
  rw [List.drop_eq_getElem_cons (by simpa using lt)]
  simp [inputBytes]

/-- R72: while an input byte of an admitted `UPDATE` remains, `MemRead` is defined for it. -/
theorem nextInput_of_feeds {s : State} (present : pField s.scratch.cmd = true) (feeds : s.scratch.opr.feeds)
    (remains : (s.scratch.i.toNat : Int) < s.scratch.opr.len) :
    s.nextInput = some (memRead s.scratch.opr s.mem (s.scratch.opr.off.toNat + s.scratch.i.toNat)) := by
  obtain ⟨off, len, bound, fits⟩ := feeds
  have defined : bufferIndexDefined (pField s.scratch.cmd) s.scratch.opr
      (s.scratch.opr.off + s.scratch.i.toNat) = true := by
    simp only [bufferIndexDefined, present, Bool.true_and, decide_eq_true_eq]
    omega
  have index : (s.scratch.opr.off + s.scratch.i.toNat).toNat = s.scratch.opr.off.toNat + s.scratch.i.toNat := by
    omega
  simp only [State.nextInput, defined, if_true, index]

/-- `s` with the bits of one more message byte counted: step 1 of `ABSORB` (R182). -/
def State.counted (s : State) : State := { s with tb := s.tb + 8#64 }

theorem State.absorb_eq_putByte (s : State) (b : Byte) : s.absorb b = s.counted.putByte b := rfl

/-- `s` after a byte of an `UPDATE` (R187): `FEED` goes on while input remains, else the command ends. -/
def State.fedOn (s : State) (c : Scratch) : State :=
  if (c.i.toNat : Int) < c.opr.len then s.walking .feed c else s.complete .ok

theorem State.fedOn_of_lt {c : Scratch} (s : State) (lt : (c.i.toNat : Int) < c.opr.len) :
    s.fedOn c = s.walking .feed c := if_pos lt

theorem State.fedOn_of_ge {c : Scratch} (s : State) (ge : ¬ (c.i.toNat : Int) < c.opr.len) :
    s.fedOn c = s.complete .ok := if_neg ge

theorem seqControl_absorb_walking_loadw (s : State) (c : Scratch) :
    seqControl .absorb (s.walking .loadw c) = s.walking .loadw c := by
  rw [seqControl, if_neg (by simp)]

theorem seqControl_absorb_walking_feed (s : State) (c : Scratch) :
    seqControl .absorb (s.walking .feed c) = s.fedOn c := by
  by_cases lt : (c.i.toNat : Int) < c.opr.len
  · have more : (s.walking .feed c).inputRemains = true := decide_eq_true lt
    simp [seqControl, more, State.fedOn_of_lt s lt]
  · have none : (s.walking .feed c).inputRemains = false := decide_eq_false lt
    simp [seqControl, none, State.fedOn_of_ge s lt]

theorem State.blockDone_of_feed {c : Scratch} (s : State) (h : c.resume = .feed) :
    (s.walking .feed c).blockDone = State.fedOn { s with pl := 0 } c := by
  by_cases lt : (c.i.toNat : Int) < c.opr.len
  · have more : (s.walking .feed c).inputRemains = true := decide_eq_true lt
    rw [State.fedOn_of_lt _ lt, State.blockDone, State.walking_scratch, h]
    simp only [more, if_true]
    rfl
  · have none : (s.walking .feed c).inputRemains = false := decide_eq_false lt
    rw [State.fedOn_of_ge _ lt, State.blockDone, State.walking_scratch, h]
    simp only [none]
    rfl

section
variable {s : State} {c : Scratch} {b : Byte} (host : s.host = []) (input : (s.walking .feed c).nextInput = some b)
include host input

/-- A step in `FEED`, whatever `PL` is. -/
theorem step_feed :
    step (s.walking .feed c) = .next (seqControl .absorb
      ((s.counted.walking .feed { c with i := c.i + 1#31 }).putInStep b .feed)) := by
  refine step_of_op (s := s.walking .feed c) host (decodeSeq_of_feed rfl) ?_
  show execAbsorb (s.walking .feed c) = _
  rw [execAbsorb, input]
  rfl

/-- One byte of an `UPDATE`, with its block where it fills one: `ABSORB`, then `FEED` again or the end. -/
theorem steps_feed_byte :
    ∃ c' : Scratch, c'.cmd = c.cmd ∧ c'.opr = c.opr ∧ c'.i = c.i + 1#31 ∧
      steps (bytesCost s.pl.val 1) (s.walking .feed c) = .next ((s.absorb b).fedOn c') := by
  have first := step_feed host input
  rw [State.absorb_eq_putByte]
  by_cases full : s.pl = 63
  · refine ⟨{ c with i := c.i + 1#31, resume := .feed }, rfl, rfl, rfl, ?_⟩
    rw [State.putInStep_walking_of_eq (s := s.counted) _ _ _ _ full, seqControl_absorb_walking_loadw] at first
    rw [bytesCost_one_of_eq full, steps_succ_of_step first, steps_block (s := s.counted.putCell b) host,
      State.putByte_of_eq (s := s.counted) full]
    exact congrArg Host.Outcome.next (State.blockDone_of_feed _ rfl)
  · refine ⟨{ c with i := c.i + 1#31 }, rfl, rfl, rfl, ?_⟩
    rw [State.putInStep_walking_of_ne (s := s.counted) _ _ _ _ full, seqControl_absorb_walking_feed] at first
    rw [bytesCost_one_of_ne full, steps_one, first]

end

/-- The next byte of an admitted `UPDATE` (R124, R182): byte `i` of its input. -/
theorem steps_feed_byte_of_feeds {s : State} {c : Scratch} (host : s.host = []) (present : pField c.cmd = true)
    (feeds : c.opr.feeds) (remains : c.i.toNat < c.opr.len.toNat) :
    ∃ c' : Scratch, c'.cmd = c.cmd ∧ c'.opr = c.opr ∧ c'.i.toNat = c.i.toNat + 1 ∧
      steps (bytesCost s.pl.val 1) (s.walking .feed c) =
        .next ((s.absorb (memRead c.opr s.mem (c.opr.off.toNat + c.i.toNat))).fedOn c') := by
  have bounds := c.opr.bounds
  have input := nextInput_of_feeds (s := s.walking .feed c) present feeds
    (show (c.i.toNat : Int) < c.opr.len by omega)
  obtain ⟨c', cmd, opr, i, byte⟩ := steps_feed_byte host input
  refine ⟨c', cmd, opr, ?_, byte⟩
  rw [i, BitVec.toNat_add, show (1#31).toNat = 1 from rfl]
  omega

/-- The bytes of an `UPDATE` that remain from index `i` on, down to the end of the command. -/
theorem steps_feed {n : Nat} {s : State} {c : Scratch} (host : s.host = []) (present : pField c.cmd = true)
    (feeds : c.opr.feeds) (rest : c.i.toNat + (n + 1) = c.opr.len.toNat) :
    steps (bytesCost s.pl.val (n + 1)) (s.walking .feed c) =
      .next ((s.absorbAll ((inputBytes c.opr s.mem).drop c.i.toNat)).complete .ok) := by
  induction n generalizing s c with
  | zero =>
    obtain ⟨c', cmd, opr, i, byte⟩ := steps_feed_byte_of_feeds host present feeds (by omega)
    have last : ¬ (c'.i.toNat : Int) < c'.opr.len := by rw [opr]; omega
    rw [byte, State.fedOn_of_ge _ last, inputBytes_drop (by omega), List.drop_eq_nil_of_le (by simp; omega)]
    rfl
  | succ n ih =>
    obtain ⟨c', cmd, opr, i, byte⟩ := steps_feed_byte_of_feeds host present feeds (by omega)
    have more : (c'.i.toNat : Int) < c'.opr.len := by rw [opr]; omega
    have rest' : c'.i.toNat + (n + 1) = c'.opr.len.toNat := by rw [opr]; omega
    rw [State.fedOn_of_lt _ more] at byte
    rw [bytesCost_succ, steps_add_of_steps byte,
      inputBytes_drop (by omega), State.absorbAll_cons]
    have tail := ih (s := s.absorb (memRead c.opr s.mem (c.opr.off.toNat + c.i.toNat))) (by simpa using host)
      (cmd ▸ present) (opr ▸ feeds) rest'
    rw [State.absorb_mem, State.absorb_pl, i, opr] at tail
    exact tail

/-! ### The bytes of `PAD` -/

/-- The eight length bytes of R183 step 3, from byte `k` on. -/
def lengthBytes (tb : BitVec 64) (k : Nat) : List Byte := ((List.range 8).drop k).map (lengthByte tb)

theorem lengthBytes_of_lt {tb : BitVec 64} {k : Nat} (lt : k < 8) :
    lengthBytes tb k = lengthByte tb k :: lengthBytes tb (k + 1) := by
  rw [lengthBytes, List.drop_eq_getElem_cons (by simpa using lt)]
  simp [lengthBytes]

/-- The padding bytes still to come where the padding counter stands (R183, R184). -/
def PadStep.remaining (p : PadStep) (pl : Fin 64) (tb : BitVec 64) : List Byte :=
  match p with
  | .start => padBytes pl.val tb
  | .zeros => List.replicate ((120 - pl.val) % 64) 0#8 ++ lengthBytes tb 0
  | .length k => lengthBytes tb k.val
  | .done => []

theorem PadStep.remaining_eq_nil {p : PadStep} {pl : Fin 64} {tb : BitVec 64} :
    p.remaining pl tb = [] ↔ p = .done := by
  cases p with
  | start => simp [PadStep.remaining, padBytes]
  | zeros => simp [PadStep.remaining, lengthBytes]
  | length k =>
    rw [PadStep.remaining, lengthBytes_of_lt k.isLt]
    simp
  | done => simp [PadStep.remaining]

/-- R183: the counter's next byte is the first of those to come, and leads on to the others. -/
theorem PadStep.next_of_remaining {p : PadStep} {pl : Fin 64} {tb : BitVec 64} {b : Byte} {bs : List Byte}
    (h : p.remaining pl tb = b :: bs) : ∃ p', p.next pl tb = some (b, p') ∧ p'.remaining (pl + 1) tb = bs := by
  have step : ((pl + 1 : Fin 64)).val = (pl.val + 1) % 64 := rfl
  have lt := pl.isLt
  cases p with
  | start =>
    obtain ⟨rfl, rfl⟩ := List.cons.inj h
    refine ⟨.zeros, rfl, ?_⟩
    rw [PadStep.remaining, step, show (120 - (pl.val + 1) % 64) % 64 = (119 - pl.val) % 64 by omega]
    rfl
  | zeros =>
    by_cases at56 : pl = 56
    · subst at56
      have h' : lengthBytes tb 0 = b :: bs := h
      rw [lengthBytes_of_lt (by decide)] at h'
      obtain ⟨rfl, rfl⟩ := List.cons.inj h'
      exact ⟨.length 1, rfl, rfl⟩
    · have ne : pl.val ≠ 56 := fun e => at56 (Fin.ext e)
      rw [PadStep.remaining, show (120 - pl.val) % 64 = (120 - (pl.val + 1) % 64) % 64 + 1 by omega,
        List.replicate_succ, List.cons_append] at h
      obtain ⟨rfl, rfl⟩ := List.cons.inj h
      exact ⟨.zeros, if_neg at56, rfl⟩
  | length k =>
    rw [PadStep.remaining, lengthBytes_of_lt k.isLt] at h
    obtain ⟨rfl, rfl⟩ := List.cons.inj h
    by_cases last : k = 7
    · subst last
      exact ⟨.done, rfl, rfl⟩
    · refine ⟨.length (k + 1), by simp [PadStep.next, last], ?_⟩
      have ne : k.val ≠ 7 := fun e => last (Fin.ext e)
      rw [PadStep.remaining, Fin.val_add]
      exact congrArg (lengthBytes tb) (Nat.mod_eq_of_lt (show k.val + 1 < 8 by omega))
  | done => cases h

/-- Where `PAD` goes on after a byte (R187): to `OUT` where the last one has filled a block. -/
def padPhase (pl : Fin 64) (p : PadStep) : Phase := if pl = 63 ∧ p = .done then .out else .pad

theorem State.blockDone_of_pad {c : Scratch} (s : State) (h : c.resume = .pad) :
    (s.walking .pad c).blockDone = State.walking { s with pl := 0 } (padPhase 63 c.pad) c := by
  by_cases done : c.pad = .done
  · have out : padPhase 63 c.pad = .out := if_pos ⟨rfl, done⟩
    rw [out, State.blockDone, State.walking_scratch, h]
    simp only [done, if_true]
    rfl
  · have pad : padPhase 63 c.pad = .pad := if_neg fun e => done e.2
    rw [pad, State.blockDone, State.walking_scratch, h]
    simp only [done, if_false]
    rfl

section
variable {s : State} {c : Scratch} {b : Byte} {p : PadStep} (host : s.host = [])
  (next : c.pad.next s.pl s.tb = some (b, p))
include host next

/-- A step in `PAD`, whatever `PL` is. -/
theorem step_pad : step (s.walking .pad c) = .next ((s.walking .pad { c with pad := p }).putInStep b .pad) := by
  refine step_of_op (s := s.walking .pad c) host (decodeSeq_of_pad rfl) ?_
  show execPad (s.walking .pad c) = _
  rw [execPad, State.walking_scratch, State.walking_pl, State.walking_tb, next]
  rfl

/-- One padding byte, with its block where it fills one. -/
theorem steps_pad_byte :
    ∃ c' : Scratch, c'.cmd = c.cmd ∧ c'.opr = c.opr ∧ c'.pad = p ∧
      steps (bytesCost s.pl.val 1) (s.walking .pad c) = .next ((s.putByte b).walking (padPhase s.pl p) c') := by
  have first := step_pad host next
  by_cases full : s.pl = 63
  · refine ⟨{ c with pad := p, resume := .pad }, rfl, rfl, rfl, ?_⟩
    rw [State.putInStep_walking_of_eq _ _ _ _ full] at first
    rw [bytesCost_one_of_eq full, steps_succ_of_step first, steps_block (s := s.putCell b) host,
      State.putByte_of_eq full, full]
    exact congrArg Host.Outcome.next (State.blockDone_of_pad _ rfl)
  · refine ⟨{ c with pad := p }, rfl, rfl, rfl, ?_⟩
    rw [State.putInStep_walking_of_ne _ _ _ _ full] at first
    rw [bytesCost_one_of_ne full, steps_one, first, padPhase, if_neg fun e => full e.1]

end

/-- The padding bytes that remain, the last of which fills a block, lead to `OUT`. -/
theorem steps_pad {bs : List Byte} {b : Byte} {s : State} {c : Scratch} (host : s.host = [])
    (remaining : c.pad.remaining s.pl s.tb = b :: bs) (fills : (s.pl.val + (b :: bs).length) % 64 = 0) :
    ∃ c' : Scratch, c'.cmd = c.cmd ∧ c'.opr = c.opr ∧
      steps (bytesCost s.pl.val (b :: bs).length) (s.walking .pad c) =
        .next ((s.putAll (b :: bs)).walking .out c') := by
  have lt := s.pl.isLt
  induction bs generalizing b s c with
  | nil =>
    obtain ⟨p, next, rest⟩ := PadStep.next_of_remaining remaining
    obtain ⟨c', cmd, opr, -, byte⟩ := steps_pad_byte host next
    have full : s.pl = 63 := Fin.ext (show s.pl.val = 63 by simp at fills; omega)
    rw [padPhase, if_pos ⟨full, PadStep.remaining_eq_nil.1 rest⟩] at byte
    exact ⟨c', cmd, opr, byte⟩
  | cons a as ih =>
    obtain ⟨p, next, rest⟩ := PadStep.next_of_remaining remaining
    obtain ⟨c', cmd, opr, pad, byte⟩ := steps_pad_byte host next
    have more : p ≠ .done := fun e => by simp [e, PadStep.remaining] at rest
    rw [padPhase, if_neg fun e => more e.2] at byte
    have fills' : ((s.putByte b).pl.val + (a :: as).length) % 64 = 0 := by
      rw [State.putByte_pl_val]
      simp only [List.length_cons] at fills ⊢
      omega
    have rest' : c'.pad.remaining (s.putByte b).pl (s.putByte b).tb = a :: as := by
      rw [pad, State.putByte_pl, State.putByte_tb, rest]
    obtain ⟨c'', cmd', opr', tail⟩ := ih (by simpa using host) rest' fills' (Fin.isLt _)
    refine ⟨c'', cmd'.trans cmd, opr'.trans opr, ?_⟩
    rw [List.length_cons, bytesCost_succ, steps_add_of_steps byte, ← State.putByte_pl s b, tail]
    rfl

/-! ### The commands -/

@[simp] theorem padBytes_length (p : Nat) (tb : BitVec 64) :
    (padBytes p tb).length = 1 + (119 - p) % 64 + 8 := by
  simp [padBytes]
  omega

/-- The padding fills one block, or two where it starts past cell 55 (R184). -/
theorem bytesCost_padBytes {p : Nat} (lt : p < 64) (tb : BitVec 64) :
    bytesCost p (padBytes p tb).length = (1 + (119 - p) % 64 + 8) + 82 * (if p ≤ 55 then 1 else 2) := by
  rw [padBytes_length, bytesCost]
  split <;> omega

/-- R187, the row `OUT`: `SERIALISE`, the stores of a `FINISHTO`, `REINIT`, and the end. -/
theorem step_out {s : State} (host : s.host = []) (c : Scratch) :
    step (s.walking .out c) = .next (s.serialise.walking .out c).storeOut.finishEnd := by
  rw [step_of_ops (s := s.walking .out c) host (decodeSeq_of_out rfl)]
  rfl

/-- From the first padding byte to the end of a finish (R125, R127), but for what `OUT` stores. -/
theorem steps_finish {s : State} {c : Scratch} (host : s.host = []) (start : c.pad = .start) :
    ∃ c' : Scratch, c'.cmd = c.cmd ∧ c'.opr = c.opr ∧
      steps (bytesCost s.pl.val (padBytes s.pl.val s.tb).length + 1) (s.walking .pad c) =
        .next (s.finished.walking .out c').storeOut.finishEnd := by
  have lt := s.pl.isLt
  have fills : (s.pl.val + (padBytes s.pl.val s.tb).length) % 64 = 0 := by
    rw [padBytes_length]
    omega
  have remaining : c.pad.remaining s.pl s.tb = padBytes s.pl.val s.tb := by rw [start]; rfl
  obtain ⟨c', cmd, opr, pad⟩ := steps_pad host remaining fills
  refine ⟨c', cmd, opr, ?_⟩
  rw [← padBytes, ← State.padAll_eq_putAll] at pad
  rw [steps_add_of_steps pad, steps_one, step_out (by simpa using host)]
  rfl

theorem storeOut_walking_of_finish {c : Scratch} (s : State) (p : Phase) (h : decodeCmd c.cmd = .finish) :
    (s.walking p c).storeOut = s.walking p c := by
  rw [State.storeOut, State.walking_scratch, h]

theorem storeOut_walking_of_finishto {c : Scratch} {b : Bool} (s : State) (p : Phase)
    (h : decodeCmd c.cmd = .finishto b) :
    (s.walking p c).storeOut = State.walking { s with mem := storeDigest c.opr s.dout s.mem } p c := by
  rw [State.storeOut, State.walking_scratch, h, State.walking_dout, State.walking_mem]
  generalize storeDigest c.opr s.dout s.mem = m
  rfl

end Sys2Proof.Machine

/-! ## The sequencer refines the atomic command (spec/00_scope.md R11, 40_commands.md R120) -/

namespace Sys2Proof.Machine

/-! ### The step counts of R250 -/

theorem stepCount_of_update {w : Word} {p : Bool} {s : State} (h : decodeCmd w = .update p) :
    stepCount w s = if updateCheck p s.opr = .run then bytesCost s.pl.val s.opr.len.toNat + 1 else 1 := by
  cases p with
  | true =>
    simp only [stepCount, h, bytesCost]
    split <;> omega
  | false =>
    have idle : updateCheck false s.opr ≠ .run := fun e => nomatch (updateCheck_eq_run.1 e).1
    simp only [stepCount, h, if_neg idle]

theorem stepCount_of_finish {w : Word} {s : State} (h : decodeCmd w = .finish) :
    stepCount w s = bytesCost s.pl.val (padBytes s.pl.val s.tb).length + 1 + 1 := by
  simp only [stepCount, h, bytesCost_padBytes s.pl.isLt]
  omega

theorem stepCount_of_finishto {w : Word} {p : Bool} {s : State} (h : decodeCmd w = .finishto p) :
    stepCount w s = if finishtoCheck p s.opr = .run then
      bytesCost s.pl.val (padBytes s.pl.val s.tb).length + 1 + 1 else 1 := by
  cases p with
  | true =>
    simp only [stepCount, h, bytesCost_padBytes s.pl.isLt]
    split <;> omega
  | false =>
    have idle : finishtoCheck false s.opr ≠ .run := fun e => nomatch (finishtoCheck_eq_run.1 e).1
    simp only [stepCount, h, if_neg idle]

/-! ### From the `CHECK` step to the end, command by command -/

section
variable {s t : State} {c : Scratch}

theorem checkStep_of_update_run {p : Bool} (h : decodeCmd c.cmd = .update p) (run : updateCheck p c.opr = .run) :
    checkStep (s.walking .check c) = .next (State.walking { s with fin := false } .feed { c with i := 0#31 }) := by
  simp only [checkStep, State.walking_scratch, h, run]
  rfl

/-- An `UPDATE` that moves no byte ends in its `CHECK` step as its rule says. -/
theorem checkStep_of_update_ends {p : Bool} (h : decodeCmd c.cmd = .update p) (opr : c.opr = s.opr)
    (ends : updateCheck p s.opr ≠ .run) : checkStep (s.walking .check c) = exec (.update p) s := by
  show _ = execUpdate p s
  simp only [checkStep, State.walking_scratch, h, opr, execUpdate]
  cases verdict : updateCheck p s.opr with
  | run => exact absurd verdict ends
  | raise e => rfl
  | nothing => rfl
  | wraps => rfl

theorem checkStep_of_finish (h : decodeCmd c.cmd = .finish) :
    checkStep (s.walking .check c) = .next (s.walking .pad { c with pad := .start }) := by
  simp only [checkStep, State.walking_scratch, h]
  rfl

theorem checkStep_of_finishto_run {p : Bool} (h : decodeCmd c.cmd = .finishto p)
    (run : finishtoCheck p c.opr = .run) :
    checkStep (s.walking .check c) = .next (s.walking .pad { c with pad := .start }) := by
  simp only [checkStep, State.walking_scratch, h, run]
  rfl

/-- A `FINISHTO` that stores nothing ends in its `CHECK` step as its rule says. -/
theorem checkStep_of_finishto_ends {p : Bool} (h : decodeCmd c.cmd = .finishto p) (opr : c.opr = s.opr)
    (ends : finishtoCheck p s.opr ≠ .run) : checkStep (s.walking .check c) = exec (.finishto p) s := by
  show _ = execFinishto p s
  simp only [checkStep, State.walking_scratch, h, opr, execFinishto]
  cases verdict : finishtoCheck p s.opr with
  | run => exact absurd verdict ends
  | raise e => rfl
  | nothing => rfl
  | wraps => rfl

section
variable (host : s.host = [])
include host

/-- A command that its `CHECK` step completes. -/
theorem steps_one_of_check (h : checkStep (s.walking .check c) = .next t) : steps 1 (s.walking .check c) = .next t := by
  rw [steps_one, step_of_check (s := s.walking .check c) host rfl, h]

/-- A command that its `CHECK` step lets go on. -/
theorem steps_succ_of_check (h : checkStep (s.walking .check c) = .next t) (n : Nat) :
    steps (n + 1) (s.walking .check c) = steps n t := by
  rw [steps_succ_of_step ((step_of_check (s := s.walking .check c) host rfl).trans h)]

/-- R124: an admitted `UPDATE` feeds its bytes one by one; any other ends in its `CHECK` step. -/
theorem steps_update {p : Bool} (h : decodeCmd c.cmd = .update p) (opr : c.opr = s.opr)
    (run : exec (.update p) s = .next t) : steps (stepCount c.cmd s) (s.walking .check c) = .next t := by
  rw [stepCount_of_update h]
  by_cases verdict : updateCheck p s.opr = .run
  · obtain ⟨rfl, feeds, pos⟩ := updateCheck_eq_run.1 verdict
    obtain ⟨n, len⟩ : ∃ n, s.opr.len.toNat = n + 1 := ⟨s.opr.len.toNat - 1, by omega⟩
    have feed := steps_feed (n := n) (s := { s with fin := false }) (c := { c with i := 0#31 }) host
      (pField_of_update h) (opr ▸ feeds) (by rw [opr, len]; exact Nat.zero_add _)
    have bytes : inputBytes c.opr s.mem = inputBytes s.opr s.mem := by rw [opr]
    have atomic : execUpdate true s = .next t := run
    simp only [execUpdate, verdict] at atomic
    rw [if_pos verdict, steps_succ_of_check host (checkStep_of_update_run h (opr ▸ verdict)), len, ← atomic, ← bytes]
    exact feed
  · rw [if_neg verdict, steps_one_of_check host ((checkStep_of_update_ends h opr verdict).trans run)]

/-- R125: a `FINISH` pads, and its `OUT` step stores nothing. -/
theorem steps_finish_command (h : decodeCmd c.cmd = .finish) (run : exec .finish s = .next t) :
    steps (stepCount c.cmd s) (s.walking .check c) = .next t := by
  obtain ⟨c', cmd, -, walk⟩ := steps_finish (s := s) (c := { c with pad := .start }) host rfl
  have run' : Host.Outcome.next s.finished.finishEnd = .next t := run
  rw [stepCount_of_finish h, steps_succ_of_check host (checkStep_of_finish h), walk,
    storeOut_walking_of_finish _ _ (cmd ▸ h), State.finishEnd_walking, run']

/-- R127: an admitted `FINISHTO` pads, and its `OUT` step stores the digest; any other ends in its `CHECK` step. -/
theorem steps_finishto {p : Bool} (h : decodeCmd c.cmd = .finishto p) (opr : c.opr = s.opr)
    (run : exec (.finishto p) s = .next t) : steps (stepCount c.cmd s) (s.walking .check c) = .next t := by
  rw [stepCount_of_finishto h]
  by_cases verdict : finishtoCheck p s.opr = .run
  · obtain ⟨c', cmd, opr', walk⟩ := steps_finish (s := s) (c := { c with pad := .start }) host rfl
    have mem : s.finished.mem = s.mem := by rw [State.finished, State.serialise_mem, State.padAll_mem]
    have atomic : execFinishto p s = .next t := run
    simp only [execFinishto, verdict] at atomic
    rw [if_pos verdict, steps_succ_of_check host (checkStep_of_finishto_run h (opr ▸ verdict)), walk,
      storeOut_walking_of_finishto _ _ (cmd ▸ h), State.finishEnd_walking, opr', opr, mem, atomic]
  · rw [if_neg verdict, steps_one_of_check host ((checkStep_of_finishto_ends h opr verdict).trans run)]

/-- R250: from its `CHECK` step on, every command ends in its atomic state after the steps counted for it. -/
theorem steps_command (opr : c.opr = s.opr) (run : exec (decodeCmd c.cmd) s = .next t) :
    steps (stepCount c.cmd s) (s.walking .check c) = .next t := by
  have cmd := isCommand_decodeCmd c.cmd
  cases h : decodeCmd c.cmd with
  | update p => exact steps_update host h opr (h ▸ run)
  | finish => exact steps_finish_command host h (h ▸ run)
  | finishto p => exact steps_finishto host h opr (h ▸ run)
  | getdlen | getblen | reset | illegal w =>
    have one : stepCount c.cmd s = 1 := by simp only [stepCount, h]
    rw [one]
    refine steps_one_of_check host (Eq.trans ?_ run)
    simp only [checkStep, State.walking_scratch, h]
    rfl
  | absorb | loadw | round1 | round2 | round3 | round4 | sched | addback | pad | serialise | reinit | putbyte =>
    rw [h] at cmd
    cases cmd

end

end

/-- R61: an `UPDATE` under a broken launch premise has no meaning. -/
theorem exec_update_of_not_launches {s : State} {p : Bool} (broken : s.opr.launches p = false) :
    exec (.update p) s = .refused .bufferWraps := by
  show execUpdate p s = _
  simp only [execUpdate, updateCheck_eq_wraps.2 broken]

/-- R61: a `FINISHTO` under a broken launch premise has no meaning. -/
theorem exec_finishto_of_not_launches {s : State} {p : Bool} (broken : s.opr.launches p = false) :
    exec (.finishto p) s = .refused .bufferWraps := by
  show execFinishto p s = _
  simp only [execFinishto, finishtoCheck_eq_wraps.2 broken]

/-- A command that has a meaning is launched: its `CMD` write is not refused. -/
theorem launchBroken_of_exec {s t : State} {w : Word} (run : exec (decodeCmd w) s = .next t) :
    s.launchBroken w = false := by
  unfold State.launchBroken
  cases h : decodeCmd w with
  | update p =>
    cases launch : s.opr.launches p with
    | true => simp [launch]
    | false => rw [h, exec_update_of_not_launches launch] at run; cases run
  | finishto p =>
    cases launch : s.opr.launches p with
    | true => simp [launch]
    | false => rw [h, exec_finishto_of_not_launches launch] at run; cases run
  | _ => rfl

/-- Settles O51: the `CMD` write enters `CHECK`, from where the command walks to its atomic end. -/
theorem sequencerRefinesTheAtomicCommand : Obligations.SequencerRefinesTheAtomicCommand := by
  intro s t w idle host run
  have launch := launchBroken_of_exec run
  have untouched : { s with host := [] } = s := by rw [← host]
  have write := step_of_cmd_write (s := { s with host := [.write { off := 0, width := 4 } w] }) idle launch rfl
  refine core_run_of_steps ?_
  rw [Nat.add_comm, steps_succ_of_step write, State.acceptCommand_eq_walking]
  show steps _ (State.walking { s with host := [] } .check { s.scratch with cmd := w, opr := s.opr }) = _
  rw [untouched]
  exact steps_command (c := { s.scratch with cmd := w, opr := s.opr }) host rfl run

end Sys2Proof.Machine

/-! ## The register block (spec/10_state.md R33 to R40) -/

namespace Sys2Proof.Machine

/-! ### `STATUS` -/

/-- Settles O9: the fields of the concatenation, for each value of the three flags. -/
theorem statusShowsBusyFinAndErr : Obligations.StatusShowsBusyFinAndErr := by
  intro busy fin e
  cases busy <;> cases fin <;> cases e <;> decide

/-! ### The accesses of the host -/

section
variable {s : State} {a : RegAccess} {v : Word}

theorem RegAccess.valid_iff : a.valid = true ↔ a.width = 4 ∧ a.off % 4 = 0 ∧ a.off < 0x40 := decide_eq_true_iff

theorem hostRead_of_not_valid (bad : a.valid = false) : hostRead a s = .refused .badRegisterAccess := if_pos bad

theorem hostWrite_of_not_valid (bad : a.valid = false) : hostWrite a v s = .refused .badRegisterAccess := if_pos bad

/-- R40: an idle core answers every valid read. -/
theorem hostRead_of_idle (valid : a.valid = true) (idle : s.busy = false) :
    hostRead a s = .next (s.readReg a.off) := by
  rw [hostRead, if_neg (by simp [valid]), if_neg (by simp [idle])]

/-- R39, R40: an idle core takes every valid write but that of `CMD`, which can also be refused. -/
theorem hostWrite_of_idle (valid : a.valid = true) (idle : s.busy = false) (ne : a.off ≠ offCmd) :
    hostWrite a v s = .next (s.writeReg a.off v) := by
  rw [hostWrite, if_neg (by simp [valid]), if_neg (by simp [idle]), if_neg fun h => ne h.1]

end

theorem step_of_read {s : State} {a : RegAccess} {rest : List HostAction} (h : s.host = .read a :: rest) :
    step s = hostRead a { s with host := rest } := by
  rw [step, h]

theorem step_of_write {s : State} {a : RegAccess} {v : Word} {rest : List HostAction}
    (h : s.host = .write a v :: rest) : step s = hostWrite a v { s with host := rest } := by
  rw [step, h]

/-- Settles O12: an access that R40 does not allow is refused before anything else is asked. -/
theorem badRegisterAccessIsRefused : Obligations.BadRegisterAccessIsRefused := by
  intro s a v rest bad
  have invalid : a.valid = false := Bool.eq_false_iff.2 fun h => by
    have := RegAccess.valid_iff.1 h
    omega
  refine ⟨fun h => ?_, fun h => ?_⟩
  · rw [step_of_read h, hostRead_of_not_valid invalid]
  · rw [step_of_write h, hostWrite_of_not_valid invalid]

/-! ### Reads -/

/-- R33: the word of `DOUT[i]`, where `FIN = 1`. -/
theorem State.regValue_dout {s : State} (fin : s.fin = true) (i : Fin 5) :
    s.regValue (0x20 + 4 * i.val) = some s.dout[i] := by
  fin_cases i <;> simp [State.regValue, fin]

/-- R39: no register of the map stands past `DOUT`. -/
theorem State.regValue_of_reserved (s : State) {off : Nat} (h : 0x34 ≤ off) : s.regValue off = some 0#32 := by
  unfold State.regValue
  split
  case h_13 => rfl
  all_goals omega

/-- A read writes the latch, and the draw counter where it draws a word; the word is the register's wherever the map
gives it one. -/
theorem State.readReg_eq (s : State) (off : Nat) :
    ∃ v n, s.readReg off = { s with rdata := v, draws := n } ∧ ∀ x, s.regValue off = some x → v = x := by
  unfold State.readReg
  cases s.regValue off with
  | some x => exact ⟨x, s.draws, rfl, fun y h => Option.some.inj h⟩
  | none => exact ⟨Config.freeRead s.draws, s.draws + 1, rfl, fun y h => nomatch h⟩

/-- Settles O10: an idle core answers the read with the word the map gives. -/
theorem registerReadsFollowTheMap : Obligations.RegisterReadsFollowTheMap := by
  intro s off rest idle aligned inside host
  have valid : RegAccess.valid { off := off, width := 4 } = true := RegAccess.valid_iff.2 ⟨rfl, aligned, inside⟩
  obtain ⟨v, n, read, word⟩ := State.readReg_eq { s with host := rest } off
  refine ⟨v, n, ?answer, ?cmd, ?status, ?result, ?offset, ?length, ?bufsize, ?bufbase, ?reserved, ?past, ?dout⟩
  case answer => rw [step_of_read host, hostRead_of_idle (s := { s with host := rest }) valid idle, read]
  case cmd | result | offset | length | bufsize | bufbase | reserved =>
    rintro rfl
    exact word _ rfl
  case status =>
    rintro rfl
    rw [← idle]
    exact word _ rfl
  case past => exact fun h => word _ (State.regValue_of_reserved _ h)
  case dout => exact fun i fin h => word _ (h ▸ State.regValue_dout fin i)

/-! ### Writes -/

/-- R36, R39: which operand register a write sets, if any. -/
theorem State.writeReg_of_ne_cmd (s : State) {off : Nat} (v : Word) (ne : off ≠ 0) :
    s.writeReg off v = { s with opr :=
      { offset := if off = 0x0C then v else s.opr.offset
        length := if off = 0x10 then v else s.opr.length
        bufsize := if off = 0x14 then v else s.opr.bufsize
        bufbase := if off = 0x18 then v else s.opr.bufbase } } := by
  unfold State.writeReg
  split <;> simp_all

/-- Settles O11: an idle core takes the write. -/
theorem registerWritesFollowTheMap : Obligations.RegisterWritesFollowTheMap := by
  intro s off v rest idle aligned inside ne host
  have valid : RegAccess.valid { off := off, width := 4 } = true := RegAccess.valid_iff.2 ⟨rfl, aligned, inside⟩
  rw [step_of_write host, hostWrite_of_idle (s := { s with host := rest }) valid idle ne,
    State.writeReg_of_ne_cmd _ v ne]

end Sys2Proof.Machine

/-! ## What each instruction may write (spec/10_state.md R21, R24, R25, R33, R35, R36, 20_memory.md R70) -/

namespace Sys2Proof.Machine

/-- R187: what a byte put in one step writes. -/
theorem State.putInStep_eq (s : State) (b : Byte) (r : Resume) :
    ∃ pl p c, s.putInStep b r = { s.putCell b with pl := pl, phase := p, scratch := c } := by
  unfold State.putInStep
  split
  · exact ⟨s.pl, .loadw, { s.scratch with resume := r }, rfl⟩
  · exact ⟨s.pl + 1, s.phase, s.scratch, rfl⟩

theorem roundStep_eq_next {f : Word → Word → Word → Word} {k : Word} {t : BitVec 7} {s u : State}
    (h : roundStep f k t s = .next u) : u = { s with dp := s.dp.round f k t } := by
  unfold roundStep at h
  split at h
  · exact (Host.Outcome.next.inj h).symm
  · cases h

/-- R159 to R162, R158: the rounds and `SCHED` write `V`, `W`, `T`, and at most `PHASE` beside them. -/
theorem exec_round_eq_next {i : Instr} {t : BitVec 7} {s u : State}
    (round : i = .round1 t ∨ i = .round2 t ∨ i = .round3 t ∨ i = .round4 t ∨ i = .sched t)
    (run : exec i s = .next u) : ∃ d p, u = { s with dp := d, phase := p } := by
  rcases round with rfl | rfl | rfl | rfl | rfl
  · exact ⟨_, _, roundStep_eq_next run⟩
  · exact ⟨_, _, roundStep_eq_next run⟩
  · exact ⟨_, _, roundStep_eq_next run⟩
  · obtain ⟨v, hv, rest⟩ := andThen_eq_next.1 run
    have hu := (Host.Outcome.next.inj rest).symm
    rw [roundStep_eq_next hv] at hu
    split at hu
    · exact ⟨_, _, hu⟩
    · exact ⟨_, _, hu⟩
  · have run' : execSched t s = .next u := run
    unfold execSched at run'
    split_ifs at run'
    · exact ⟨_, _, (Host.Outcome.next.inj run').symm⟩
    · exact ⟨_, _, (Host.Outcome.next.inj run').symm⟩

/-- R182, R187: what `ABSORB` writes in its step. -/
theorem exec_absorb_eq_next {s u : State} (run : exec .absorb s = .next u) :
    ∃ pb pl p c, u = { s with tb := s.tb + 8#64, pb := pb, pl := pl, phase := p, scratch := c } := by
  have run' : execAbsorb s = .next u := run
  unfold execAbsorb at run'
  cases input : s.nextInput with
  | none => rw [input] at run'; cases run'
  | some b =>
    rw [input] at run'
    obtain ⟨pl, p, c, eq⟩ := State.putInStep_eq { s with
      tb := s.tb + 8#64, scratch := { s.scratch with i := s.scratch.i + 1#31 } } b .feed
    exact ⟨_, pl, p, c, (Host.Outcome.next.inj run').symm.trans eq⟩

/-- R183, R187: what `PAD` writes in its step. -/
theorem exec_pad_eq_next {s u : State} (run : exec .pad s = .next u) :
    ∃ pb pl p c, u = { s with pb := pb, pl := pl, phase := p, scratch := c } := by
  have run' : execPad s = .next u := run
  unfold execPad at run'
  cases next : s.scratch.pad.next s.pl s.tb with
  | none => rw [next] at run'; cases run'
  | some bp =>
    rw [next] at run'
    obtain ⟨pl, p, c, eq⟩ := State.putInStep_eq { s with scratch := { s.scratch with pad := bp.2 } } bp.1 .pad
    exact ⟨_, pl, p, c, (Host.Outcome.next.inj run').symm.trans eq⟩

/-- R124: an `UPDATE` ends at once, or absorbs its bytes. -/
theorem exec_update_eq_next {p : Bool} {s u : State} (run : exec (.update p) s = .next u) :
    (∃ e, u = s.complete e) ∨
      u = ({ s with fin := false }.absorbAll (inputBytes s.opr s.mem)).complete .ok := by
  have run' : execUpdate p s = .next u := run
  unfold execUpdate at run'
  split at run'
  · next e _ => exact .inl ⟨e, (Host.Outcome.next.inj run').symm⟩
  · exact .inl ⟨.ok, (Host.Outcome.next.inj run').symm⟩
  · exact .inr (Host.Outcome.next.inj run').symm
  · cases run'

/-- R127: a `FINISHTO` ends at once, or finishes with its bytes stored. -/
theorem exec_finishto_eq_next {p : Bool} {s u : State} (run : exec (.finishto p) s = .next u) :
    (∃ e, u = s.complete e) ∨ ∃ m, u = State.finishEnd { s.finished with mem := m } := by
  have run' : execFinishto p s = .next u := run
  unfold execFinishto at run'
  split at run'
  · next e _ => exact .inl ⟨e, (Host.Outcome.next.inj run').symm⟩
  · exact .inl ⟨.ok, (Host.Outcome.next.inj run').symm⟩
  · exact .inr ⟨_, (Host.Outcome.next.inj run').symm⟩
  · cases run'

/-- Settles O31, instruction by instruction: what each writes. -/
theorem eachRegisterHasOnlyItsWriters : Obligations.EachRegisterHasOnlyItsWriters := by
  intro s t i run
  cases i with
  | getdlen | getblen | reset | illegal w | loadw | addback | serialise | reinit | putbyte b =>
    obtain rfl := Host.Outcome.next.inj run
    simp
  | update p =>
    obtain ⟨e, rfl⟩ | rfl := exec_update_eq_next run <;> simp
  | finish =>
    obtain rfl := Host.Outcome.next.inj run
    simp [State.finishEnd, State.finished]
  | finishto p =>
    obtain ⟨e, rfl⟩ | ⟨m, rfl⟩ := exec_finishto_eq_next run <;> simp [State.finishEnd, State.finished]
  | absorb =>
    obtain ⟨pb, pl, p, c, rfl⟩ := exec_absorb_eq_next run
    simp
  | pad =>
    obtain ⟨pb, pl, p, c, rfl⟩ := exec_pad_eq_next run
    simp
  | round1 t | round2 t | round3 t | round4 t | sched t =>
    obtain ⟨d, p, rfl⟩ := exec_round_eq_next (t := t) (by simp) run
    simp

end Sys2Proof.Machine

/-! ## Stale state and the digest (spec/10_state.md R22, R41) -/

namespace Sys2Proof.Machine

/-! ### Two states that hold the same computation -/

/-- The cells that must agree are the pending bytes. -/
theorem sameComputation_iff {s t : State} :
    SameComputation s t ↔ s.h = t.h ∧ s.pl = t.pl ∧ s.tb = t.tb ∧ s.pending = t.pending ∧ s.mem = t.mem := by
  have cells (pl : s.pl = t.pl) : (∀ i : Fin 64, i < s.pl → s.pb[i] = t.pb[i]) ↔ s.pending = t.pending := by
    rw [List.ext_getElem_iff]
    simp only [true_and, State.pending, List.getElem_take, Vector.getElem_toList, List.length_take,
      Vector.length_toList, pl]
    constructor
    · intro agree i lt _
      exact agree ⟨i, by omega⟩ (Fin.lt_def.2 (show i < t.pl.val by omega))
    · intro agree i below
      have lt : i.val < t.pl.val := Fin.lt_def.1 below
      exact agree i.val (by omega) (by omega)
  unfold SameComputation
  constructor
  · rintro ⟨h, pl, tb, pb, mem⟩
    exact ⟨h, pl, tb, (cells pl).1 pb, mem⟩
  · rintro ⟨h, pl, tb, pending, mem⟩
    exact ⟨h, pl, tb, (cells pl).2 pending, mem⟩

/-- R125: the digest of a finish is a function of the hash words, the pending bytes and the bit count. -/
theorem State.finished_dout (s : State) :
    s.finished.dout = compressBlocks s.h (s.pending ++ padBytes s.pl.val s.tb) := by
  rw [State.finished, State.serialise_dout, State.padAll_eq_putAll]
  exact (s.stands_pending.putAll _).h_eq

/-- R127: what a `FINISHTO` whose checks pass leaves. -/
theorem execFinishto_of_run {p : Bool} {s : State} (h : finishtoCheck p s.opr = .run) :
    execFinishto p s = .next (State.finishEnd
      { s.finished with mem := storeDigest s.opr s.finished.dout s.mem }) := by
  simp only [execFinishto, h]

theorem State.finished_mem (s : State) : s.finished.mem = s.mem := by
  rw [State.finished, State.serialise_mem, State.padAll_mem]

section
variable {s t : State}

theorem SameComputation.mem_eq (same : SameComputation s t) : s.mem = t.mem := by
  obtain ⟨-, -, -, -, mem⟩ := same
  exact mem

/-- The end of a command writes nothing of the computation. -/
theorem SameComputation.complete (same : SameComputation s t) (e : ErrCode) :
    SameComputation (s.complete e) (t.complete e) := same

/-- Input bytes keep the agreement: what they leave is where the agreeing pending bytes lead. -/
theorem SameComputation.absorbAll (same : SameComputation s t) (bs : List Byte) :
    SameComputation (s.absorbAll bs) (t.absorbAll bs) := by
  obtain ⟨h, pl, tb, pending, mem⟩ := sameComputation_iff.1 same
  have left := s.stands_pending.absorbAll bs
  have right := t.stands_pending.absorbAll bs
  rw [← h, ← pending] at right
  refine sameComputation_iff.2 ⟨?_, ?_, ?_, ?_, ?_⟩
  · rw [left.h_eq, right.h_eq]
  · exact Fin.ext (left.pl_eq.trans right.pl_eq.symm)
  · rw [State.absorbAll_tb, State.absorbAll_tb, tb]
  · rw [left.pending_eq, right.pending_eq]
  · rw [State.absorbAll_mem, State.absorbAll_mem, mem]

theorem SameComputation.finished_dout (same : SameComputation s t) : s.finished.dout = t.finished.dout := by
  obtain ⟨h, pl, tb, pending, -⟩ := sameComputation_iff.1 same
  rw [State.finished_dout, State.finished_dout, h, pl, tb, pending]

/-- After `REINIT` only memory can tell two states apart. -/
theorem sameComputation_reinit (mem : s.mem = t.mem) : SameComputation s.reinit t.reinit :=
  ⟨rfl, rfl, rfl, fun i lt => absurd lt (Fin.not_lt_zero i), mem⟩

theorem sameComputation_finishEnd (mem : s.mem = t.mem) : SameComputation s.finishEnd t.finishEnd :=
  sameComputation_reinit mem

/-! ### Commands -/

/-- Two runs of a command that hold the same computation after it, or have no meaning for the same reason. -/
def SameAnswer (r r' : Result) : Prop :=
  (∃ s t, r = .next s ∧ r' = .next t ∧ SameComputation s t) ∨ ∃ e, r = .refused e ∧ r' = .refused e

theorem SameComputation.answer (same : SameComputation s t) : SameAnswer (.next s) (.next t) :=
  .inl ⟨s, t, rfl, rfl, same⟩

theorem execReset_sameAnswer (same : SameComputation s t) : SameAnswer (execReset s) (execReset t) := by
  have after : SameComputation { s.reinit with fin := false } { t.reinit with fin := false } :=
    sameComputation_reinit same.mem_eq
  exact (after.complete .ok).answer

/-- R124: `FIN`, which an `UPDATE` clears, is no part of the computation. -/
theorem execUpdate_sameAnswer (p : Bool) (same : SameComputation s t) (opr : s.opr = t.opr) :
    SameAnswer (execUpdate p s) (execUpdate p t) := by
  have cleared : SameComputation { s with fin := false } { t with fin := false } := same
  have fed := (cleared.absorbAll (inputBytes s.opr s.mem)).complete .ok
  have bytes : inputBytes t.opr t.mem = inputBytes s.opr s.mem := by rw [opr, same.mem_eq]
  have check : updateCheck p t.opr = updateCheck p s.opr := by rw [opr]
  rw [execUpdate, execUpdate, check, bytes]
  cases updateCheck p s.opr with
  | raise e => exact (same.complete e).answer
  | nothing => exact (same.complete .ok).answer
  | run => exact fed.answer
  | wraps => exact .inr ⟨.bufferWraps, rfl, rfl⟩

theorem execFinish_sameAnswer (same : SameComputation s t) : SameAnswer (execFinish s) (execFinish t) := by
  have mem : s.finished.mem = t.finished.mem := by rw [State.finished_mem, State.finished_mem, same.mem_eq]
  exact (sameComputation_finishEnd mem).answer

/-- R127: the bytes stored are those of the same digest. -/
theorem execFinishto_sameAnswer (p : Bool) (same : SameComputation s t) (opr : s.opr = t.opr) :
    SameAnswer (execFinishto p s) (execFinishto p t) := by
  have stored : storeDigest t.opr t.finished.dout t.mem = storeDigest s.opr s.finished.dout s.mem := by
    rw [opr, same.finished_dout, same.mem_eq]
  have check : finishtoCheck p t.opr = finishtoCheck p s.opr := by rw [opr]
  cases verdict : finishtoCheck p s.opr with
  | run =>
    rw [execFinishto_of_run verdict, execFinishto_of_run (check.trans verdict), stored]
    generalize storeDigest s.opr s.finished.dout s.mem = m
    exact (sameComputation_finishEnd (s := { s.finished with mem := m }) (t := { t.finished with mem := m }) rfl).answer
  | raise e =>
    simp only [execFinishto, check, verdict]
    exact (same.complete e).answer
  | nothing => exact absurd verdict finishtoCheck_ne_nothing
  | wraps =>
    simp only [execFinishto, check, verdict]
    exact .inr ⟨.bufferWraps, rfl, rfl⟩

/-- With the same operands every command keeps the agreement, or has no meaning in either state. -/
theorem exec_sameAnswer {i : Instr} (cmd : isCommand i = true) (same : SameComputation s t) (opr : s.opr = t.opr) :
    SameAnswer (exec i s) (exec i t) := by
  cases i with
  | getdlen | getblen | illegal w => exact SameComputation.answer same
  | reset => exact execReset_sameAnswer same
  | update p => exact execUpdate_sameAnswer p same opr
  | finish => exact execFinish_sameAnswer same
  | finishto p => exact execFinishto_sameAnswer p same opr
  | _ => cases cmd

end

/-! ### Command sequences -/

theorem exec_finish (s : State) : exec .finish s = .next s.finished.finishEnd := rfl

theorem State.finishEnd_dout (s : State) : s.finishEnd.dout = s.dout := rfl

theorem digestAfter_nil (s : State) : digestAfter [] s = some s.finished.dout := by
  rw [digestAfter, exec_finish, ← State.finishEnd_dout]

/-- A command that has a meaning leads on to the commands after it. -/
theorem digestAfter_cons_of_next {s t : State} {o : Operands} {w : Word} (cs : List (Operands × Word))
    (run : exec (decodeCmd w) { s with opr := o } = .next t) : digestAfter ((o, w) :: cs) s = digestAfter cs t := by
  rw [digestAfter, run]

theorem digestAfter_cons_of_refused {s : State} {o : Operands} {w : Word} {e : Refusal} (cs : List (Operands × Word))
    (run : exec (decodeCmd w) { s with opr := o } = .refused e) : digestAfter ((o, w) :: cs) s = none := by
  rw [digestAfter, run]

/-- Settles O29: every command keeps "the two states hold the same computation", on which the digest of a finish
depends. -/
theorem staleStateNeverReachesADigest : Obligations.StaleStateNeverReachesADigest := by
  intro s t cs same
  induction cs generalizing s t with
  | nil => rw [digestAfter_nil, digestAfter_nil, same.finished_dout]
  | cons c cs ih =>
    obtain ⟨o, w⟩ := c
    have same' : SameComputation { s with opr := o } { t with opr := o } := same
    rcases exec_sameAnswer (isCommand_decodeCmd w) same' rfl with ⟨s', t', hs, ht, after⟩ | ⟨e, hs, ht⟩
    · rw [digestAfter_cons_of_next cs hs, digestAfter_cons_of_next cs ht, ih s' t' after]
    · rw [digestAfter_cons_of_refused cs hs, digestAfter_cons_of_refused cs ht]

end Sys2Proof.Machine

/-! ## The 16-word window (spec/10_state.md R29) -/

namespace Sys2Proof.Machine

/-- The pair of window and working registers before round `n`: the window holds the last 16 of the schedule words
known by then, word `j` in cell `j mod 16`. -/
structure WindowAtRound (h : Vector Word 5) (pb : Vector Byte 64) (n m : Nat) (x : Vector Word 16 × Vector Word 5) :
    Prop where
  v_eq : x.2 = roundsFn h pb n
  w_eq : ∀ j < m, m ≤ j + 16 → (x.1[j % 16]?).getD 0#32 = (schedule pb).getD j 0#32

section
variable {h : Vector Word 5} {pb : Vector Byte 64} {n m : Nat} {x : Vector Word 16 × Vector Word 5}

/-- The word `d` before word `t`, while it is in the window. -/
theorem WindowAtRound.windowAt_eq (at_n : WindowAtRound h pb n m x) {t d : Nat} (lt : t - d < m)
    (ge : m ≤ t - d + 16) : windowAt x.1 t d = (schedule pb).getD (t - d) 0#32 := at_n.w_eq (t - d) lt ge

/-- The new word takes the cell of the word 16 before it, which the recurrence (R158) still reads. -/
def windowExtend (w : Vector Word 16) (t : Nat) : Vector Word 16 :=
  w.setIfInBounds (t % 16)
    (rotl 1 (windowAt w t 3 ^^^ windowAt w t 8 ^^^ windowAt w t 14 ^^^ windowAt w t 16))

theorem windowTurn_eq (x : Vector Word 16 × Vector Word 5) (t : Nat) :
    windowTurn x t =
      (if 16 ≤ t then windowExtend x.1 t else x.1,
        roundWords (stageOf t).1 (stageOf t).2 (windowAt (if 16 ≤ t then windowExtend x.1 t else x.1) t 0) x.2) := rfl

theorem WindowAtRound.extend (ge : 16 ≤ n) (lt : n < 80) (before : WindowAtRound h pb n n x) :
    WindowAtRound h pb n (n + 1) (windowExtend x.1 n, x.2) := by
  refine ⟨before.v_eq, fun j hj near => ?_⟩
  show ((windowExtend x.1 n)[j % 16]?).getD 0#32 = _
  by_cases new : n = j
  · subst new
    rw [windowExtend, Vector.getElem?_setIfInBounds_self_of_lt (Nat.mod_lt n (by decide)), Option.getD_some,
      schedule_getD_of_ge ge lt, before.windowAt_eq (by omega) (by omega), before.windowAt_eq (by omega) (by omega),
      before.windowAt_eq (by omega) (by omega), before.windowAt_eq (by omega) (by omega)]
  · rw [windowExtend, Vector.getElem?_setIfInBounds_ne (by omega)]
    exact before.w_eq j (by omega) (by omega)

theorem WindowAtRound.round (have_n : n < m) (near : m ≤ n + 16) (before : WindowAtRound h pb n m x) :
    WindowAtRound h pb (n + 1) m (x.1, roundWords (stageOf n).1 (stageOf n).2 (windowAt x.1 n 0) x.2) := by
  refine ⟨?_, before.w_eq⟩
  show roundWords _ _ _ _ = _
  rw [before.windowAt_eq have_n near, before.v_eq, roundsFn_succ]
  rfl

/-- One turn on the window goes from round to round, as the turn on the schedule file does. -/
theorem WindowAtRound.turn (lt : n < 80) (before : WindowAtRound h pb n (max 16 n) x) :
    WindowAtRound h pb (n + 1) (max 16 (n + 1)) (windowTurn x n) := by
  rw [windowTurn_eq]
  by_cases ge : 16 ≤ n
  · rw [if_pos ge, max_eq_right (by omega)]
    rw [max_eq_right ge] at before
    exact (before.extend ge lt).round (by omega) (by omega)
  · rw [if_neg ge, max_eq_left (by omega)]
    rw [max_eq_left (by omega)] at before
    exact before.round (by omega) (by omega)

end

theorem windowAtRound_load (h : Vector Word 5) (pb : Vector Byte 64) :
    WindowAtRound h pb 0 16 (Vector.ofFn fun t => blockWord pb t, h) := by
  refine ⟨rfl, fun j lt _ => ?_⟩
  rw [schedule_getD_of_lt lt]
  simp [Nat.mod_eq_of_lt lt, lt]

theorem windowAtRound_turns (h : Vector Word 5) (pb : Vector Byte 64) {n : Nat} (le : n ≤ 80) :
    WindowAtRound h pb n (max 16 n)
      ((List.range n).foldl windowTurn (Vector.ofFn fun t => blockWord pb t, h)) := by
  induction n with
  | zero => exact windowAtRound_load h pb
  | succ n ih =>
    rw [List.range_succ, List.foldl_append]
    exact (ih (by omega)).turn (by omega)

/-- Settles O39: after each round both hold the working registers of the whole schedule. -/
theorem sixteenWordWindowIsIndistinguishable : Obligations.SixteenWordWindowIsIndistinguishable := by
  intro s
  rw [State.compress_h_eq_compressFn, compressFn_eq, windowCompress, (windowAtRound_turns s.h s.pb le_rfl).v_eq]

end Sys2Proof.Machine

/-! ## The invariant of the machine (spec/10_state.md R23, R26, R30, R31, 42_buffering_padding.md R187) -/

namespace Sys2Proof.Machine

/-- An answer that keeps the invariant: no fault, and a next state of the invariant. -/
def KeepsInv : Result → Prop
  | .next t => t.Inv
  | .fault _ => False
  | .refused _ => True

theorem KeepsInv.next {t : State} (inv : t.Inv) : KeepsInv (.next t) := inv

theorem KeepsInv.inv_of_next {r : Result} {t : State} (keeps : KeepsInv r) (h : r = .next t) : t.Inv := by
  rw [h] at keeps
  exact keeps

/-! ### What the invariant says before and after a command -/

/-- What the invariant says of the state between commands, beside `PHASE` and `BUSY`. -/
structure State.Resting (s : State) : Prop where
  wf : s.mem.wf = true
  t_le : s.dp.t.toNat ≤ 80
  counts : s.countsAgree
  fresh : s.finIsFresh

/-- The end of a command (R120) is a state of the invariant. -/
theorem State.Resting.complete {s : State} (rest : s.Resting) (e : ErrCode) : (s.complete e).Inv :=
  ⟨rest.wf, by simp, rest.t_le, rest.counts, rest.fresh⟩

/-- An idle core rests, whatever it holds beside. -/
theorem State.Resting.idle {s : State} (rest : s.Resting) (busy : s.busy = false) (phase : s.phase = .idle) :
    s.Inv := by
  refine ⟨rest.wf, by simp [busy, phase], rest.t_le, ?_⟩
  rw [State.phaseInv, phase]
  exact ⟨rest.counts, rest.fresh⟩

/-- R31: an idle core is in `PHASE = IDLE`. -/
theorem State.Inv.phase_of_idle {s : State} (inv : s.Inv) (idle : s.busy = false) : s.phase = .idle := by
  obtain ⟨-, idle_iff, -, -⟩ := inv
  exact idle_iff.1 idle

theorem State.Inv.resting_of_idle {s : State} (inv : s.Inv) (idle : s.busy = false) : s.Resting := by
  have phase := inv.phase_of_idle idle
  obtain ⟨wf, -, t_le, now⟩ := inv
  rw [State.phaseInv, phase] at now
  obtain ⟨counts, fresh⟩ := now
  exact ⟨wf, t_le, counts, fresh⟩

/-- A command under way, in the phase `p`. -/
theorem State.walking_inv {s : State} {p : Phase} {c : Scratch} (wf : s.mem.wf = true) (t_le : s.dp.t.toNat ≤ 80)
    (ne : p ≠ .idle) (now : (s.walking p c).phaseInv) : (s.walking p c).Inv :=
  ⟨wf, iff_of_false (by simp [State.walking]) ne, t_le, now⟩

/-- Every busy core is a command under way. -/
theorem State.exists_walking {s : State} (busy : s.busy = true) : ∃ u p c, s = State.walking u p c :=
  ⟨s, s.phase, s.scratch, by rw [State.walking, ← busy]⟩

/-- After `REINIT` the digest state is the initial one, with `FIN` either way. -/
theorem State.resting_of_reinit {s : State} (f : Bool) (wf : s.mem.wf = true) (t_le : s.dp.t.toNat ≤ 80) :
    State.Resting { s.reinit with fin := f } := ⟨wf, t_le, rfl, fun _ => ⟨rfl, rfl, rfl⟩⟩

theorem State.finishEnd_inv {s : State} (wf : s.mem.wf = true) (t_le : s.dp.t.toNat ≤ 80) : s.finishEnd.Inv :=
  (State.resting_of_reinit true wf t_le).complete .ok

/-! ### Bytes -/

/-- R30: a byte leaves `T` in its range, with a block compressed or not. -/
theorem State.putByte_t_le {s : State} (t_le : s.dp.t.toNat ≤ 80) (b : Byte) : (s.putByte b).dp.t.toNat ≤ 80 := by
  by_cases full : s.pl = 63
  · rw [State.putByte_of_eq full]
    show (s.putCell b).compress.dp.t.toNat ≤ 80
    rw [State.compress_dp_t]
    decide
  · rw [State.putByte_of_ne full]
    exact t_le

theorem State.putAll_t_le {s : State} (t_le : s.dp.t.toNat ≤ 80) (bs : List Byte) :
    (s.putAll bs).dp.t.toNat ≤ 80 :=
  List.foldlRecOn (motive := fun u : State => u.dp.t.toNat ≤ 80) bs _ t_le fun _ le b _ => State.putByte_t_le le b

theorem State.finished_t_le {s : State} (t_le : s.dp.t.toNat ≤ 80) : s.finished.dp.t.toNat ≤ 80 := by
  rw [State.finished, State.serialise_dp, State.padAll_eq_putAll]
  exact State.putAll_t_le t_le _

/-- R26 item 2: the two counts of a message byte agree. -/
theorem State.absorb_countsAgree {s : State} (counts : s.countsAgree) (b : Byte) : (s.absorb b).countsAgree := by
  have pl : (s.absorb b).pl.val = (s.pl.val + 1) % 64 := State.putByte_pl_val _ b
  unfold State.countsAgree at counts ⊢
  rw [pl, State.absorb_tb, BitVec.toNat_add, show (8#64).toNat = 8 from rfl]
  omega

/-- With `FIN` cleared, input bytes keep a resting state resting (R124). -/
theorem State.Resting.absorbAll {s : State} (rest : s.Resting) (bs : List Byte) :
    State.Resting ({ s with fin := false }.absorbAll bs) := by
  refine ⟨by simpa using rest.wf, ?_, ?_, fun fin => by simp at fin⟩
  · exact List.foldlRecOn (motive := fun u : State => u.dp.t.toNat ≤ 80) bs _ rest.t_le
      fun u le b _ => State.putByte_t_le (s := State.counted u) le b
  · exact List.foldlRecOn (motive := State.countsAgree) bs _ rest.counts
      fun _ counts b _ => State.absorb_countsAgree counts b

/-! ### The atomic commands -/

theorem State.Resting.execUpdate_keepsInv {s : State} (rest : s.Resting) (p : Bool) : KeepsInv (execUpdate p s) := by
  rw [execUpdate]
  cases updateCheck p s.opr with
  | raise e => exact rest.complete e
  | nothing => exact rest.complete .ok
  | run => exact (rest.absorbAll _).complete .ok
  | wraps => trivial

theorem State.Resting.execFinishto_keepsInv {s : State} (rest : s.Resting) (p : Bool) :
    KeepsInv (execFinishto p s) := by
  cases verdict : finishtoCheck p s.opr with
  | run =>
    have wf := wf_storeDigest (o := s.opr) (d := s.finished.dout) rest.wf
    have t_le := State.finished_t_le rest.t_le
    rw [execFinishto_of_run verdict]
    generalize storeDigest s.opr s.finished.dout s.mem = m at wf ⊢
    generalize s.finished = u at t_le ⊢
    exact KeepsInv.next (State.finishEnd_inv (s := { u with mem := m }) wf t_le)
  | raise e =>
    simp only [execFinishto, verdict]
    exact rest.complete e
  | nothing => exact absurd verdict finishtoCheck_ne_nothing
  | wraps =>
    simp only [execFinishto, verdict]
    trivial

/-- Every command issued to a resting core keeps the invariant. -/
theorem State.Resting.exec_command_keepsInv {s : State} (rest : s.Resting) {i : Instr} (cmd : isCommand i = true) :
    KeepsInv (exec i s) := by
  cases i with
  | getdlen | getblen =>
    exact State.Resting.complete (s := { s with result := _ }) ⟨rest.wf, rest.t_le, rest.counts, rest.fresh⟩ .ok
  | reset => exact (State.resting_of_reinit false rest.wf rest.t_le).complete .ok
  | update p => exact rest.execUpdate_keepsInv p
  | finish =>
    have wf : s.finished.mem.wf = true := by rw [State.finished_mem]; exact rest.wf
    rw [exec_finish]
    exact KeepsInv.next (State.finishEnd_inv wf (State.finished_t_le rest.t_le))
  | finishto p => exact rest.execFinishto_keepsInv p
  | illegal w => exact rest.complete .illegalCommand
  | _ => cases cmd

/-! ### The sequencer, phase by phase -/

section
variable {s : State} {c : Scratch}

theorem coreStep_of_op {t : State} {i : Instr} (h : decodeSeq s.seqWord = .ok [i]) (run : exec i s = .next t) :
    coreStep s = .next (seqControl i t) := by
  rw [coreStep, h]
  show runOps [i] s = _
  rw [runOps_cons, run]
  rfl

theorem coreStep_of_idle (h : s.phase = .idle) : coreStep s = .next s := by
  have word : decodeSeq s.seqWord = .error .idle := by simp [State.seqWord, decodeSeq, h, Phase.code]
  rw [coreStep, word]

/-- R99, R164: a step in `ROUND` is one turn of the loop of `COMPRESS`. -/
theorem coreStep_of_round (h : s.phase = .round) (lt : s.dp.t.toNat < 80) :
    coreStep s = .next { s with dp := s.dp.turn, phase := if s.dp.t.toNat = 79 then .addback else s.phase } := by
  have word := (decodeSeq_of_round h).trans (roundOps_of_lt lt)
  rw [Datapath.turn]
  by_cases early : s.dp.t.toNat < 16
  · rw [if_pos early] at word
    rw [if_neg (by omega), coreStep_of_op word (exec_stageInstr rfl lt), seqControl_stageInstr]
  · rw [if_neg early] at word
    have scheduled := exec_stageInstr (s := { s with dp := s.dp.sched s.dp.t.toNat }) (t := s.dp.t) rfl lt
    rw [if_pos (by omega), coreStep, word]
    show runOps [.sched s.dp.t, stageInstr s.dp.t] s = _
    rw [runOps_cons, exec_sched_of_ge (by omega) lt, andThen_next, runOps_cons]
    exact (congrArg (andThen · _) scheduled).trans (congrArg Host.Outcome.next (seqControl_stageInstr _ _))

/-- R183: while the padding counter stands where the invariant says, there is a next byte; where it fills the block,
the zeros go on or `PAD` is done, else the counter stands at the next `PL`. -/
theorem PadStep.next_of_stands (stands : (s.walking .pad c).padStands) :
    ∃ b p, c.pad.next s.pl s.tb = some (b, p) ∧ (s.pl = 63 → p = .zeros ∨ p = .done) ∧
      (s.pl ≠ 63 → ((s.putByte b).walking .pad { c with pad := p }).padStands) := by
  rw [State.padStands, State.walking_scratch] at stands
  have pl_next (b : Byte) : (s.putByte b).pl.val = (s.pl.val + 1) % 64 := s.putByte_pl_val b
  cases pad : c.pad with
  | start => exact ⟨_, _, rfl, fun _ => .inl rfl, fun _ => trivial⟩
  | zeros =>
    by_cases at56 : s.pl = 56
    · refine ⟨_, _, if_pos at56, fun full => absurd (at56.symm.trans full) (by decide), fun _ => ⟨by decide, ?_⟩⟩
      show (s.putByte _).pl.val = _
      rw [pl_next, at56]
      rfl
    · exact ⟨_, _, if_neg at56, fun _ => .inl rfl, fun _ => trivial⟩
  | length k =>
    rw [pad] at stands
    obtain ⟨pos, pl⟩ : 0 < k.val ∧ s.pl.val = 56 + k.val := stands
    by_cases last : k = 7
    · subst last
      exact ⟨_, _, rfl, fun _ => .inr rfl, fun ne => absurd (Fin.ext pl) ne⟩
    · have ne : k.val ≠ 7 := fun e => last (Fin.ext e)
      have k_next : (k + 1).val = k.val + 1 := by rw [Fin.val_add]; exact Nat.mod_eq_of_lt (by omega)
      refine ⟨lengthByte s.tb k.val, .length (k + 1), by simp [PadStep.next, last], fun full => ?_, fun _ => ?_⟩
      · rw [full] at pl
        omega
      · show 0 < (k + 1).val ∧ (s.putByte _).pl.val = 56 + (k + 1).val
        rw [pl_next]
        omega
  | done => rw [pad] at stands; exact stands.elim

section
variable (wf : s.mem.wf = true) (t_le : s.dp.t.toNat ≤ 80)
include wf t_le

/-- R187, the rows `CHECK`. -/
theorem checkStep_keepsInv (counts : s.countsAgree) (fresh : s.finIsFresh) :
    KeepsInv (checkStep (s.walking .check c)) := by
  have rest : s.Resting := ⟨wf, t_le, counts, fresh⟩
  have rest' : (s.walking .check c).Resting := ⟨wf, t_le, counts, fresh⟩
  have cmd := isCommand_decodeCmd c.cmd
  cases h : decodeCmd c.cmd with
  | getdlen | getblen | reset | illegal w =>
    simp only [checkStep, State.walking_scratch, h]
    exact rest'.exec_command_keepsInv rfl
  | update p =>
    cases verdict : updateCheck p c.opr with
    | raise e | nothing =>
      simp only [checkStep, State.walking_scratch, h, verdict]
      exact rest.complete _
    | run =>
      obtain ⟨rfl, feeds, pos⟩ := updateCheck_eq_run.1 verdict
      rw [checkStep_of_update_run h verdict]
      exact KeepsInv.next (State.walking_inv (s := { s with fin := false }) wf t_le (by decide)
        ⟨⟨h, feeds, pos, rfl⟩, counts, pos⟩)
    | wraps =>
      simp only [checkStep, State.walking_scratch, h, verdict]
      trivial
  | finish =>
    rw [checkStep_of_finish h]
    exact KeepsInv.next (State.walking_inv wf t_le (by decide) ⟨.inl h, trivial⟩)
  | finishto p =>
    cases verdict : finishtoCheck p c.opr with
    | raise e =>
      simp only [checkStep, State.walking_scratch, h, verdict]
      exact rest.complete e
    | nothing => exact absurd verdict finishtoCheck_ne_nothing
    | run =>
      obtain ⟨rfl, receives⟩ := finishtoCheck_eq_run.1 verdict
      rw [checkStep_of_finishto_run h verdict]
      exact KeepsInv.next (State.walking_inv wf t_le (by decide) ⟨.inr ⟨h, receives⟩, trivial⟩)
    | wraps =>
      simp only [checkStep, State.walking_scratch, h, verdict]
      trivial
  | _ => rw [h] at cmd; cases cmd

/-- R187: `FEED` goes on, or the command is complete. -/
theorem State.fedOn_inv (runs : (s.walking .feed c).updateRuns) (counts : s.countsAgree) : (s.fedOn c).Inv := by
  by_cases more : (c.i.toNat : Int) < c.opr.len
  · rw [State.fedOn_of_lt s more]
    exact State.walking_inv wf t_le (by decide) ⟨runs, counts, more⟩
  · obtain ⟨-, -, -, fin⟩ := runs
    have cleared : s.fin = false := fin
    rw [State.fedOn_of_ge s more]
    exact State.Resting.complete ⟨wf, t_le, counts, fun h => absurd h (by simp [cleared])⟩ .ok

/-- R187, the rows `FEED`. -/
theorem coreStep_feed_keepsInv (runs : (s.walking .feed c).updateRuns) (counts : s.countsAgree)
    (remains : (c.i.toNat : Int) < c.opr.len) : KeepsInv (coreStep (s.walking .feed c)) := by
  obtain ⟨cmd, feeds, pos, fin⟩ := runs
  have bounds := c.opr.bounds
  have next_i : ((c.i + 1#31).toNat : Int) ≤ c.opr.len := by
    rw [BitVec.toNat_add, show (1#31).toNat = 1 from rfl]
    omega
  have input := nextInput_of_feeds (pField_of_update cmd) feeds remains
  generalize memRead _ _ _ = b at input
  have run : exec .absorb (s.walking .feed c) =
      .next ((s.counted.walking .feed { c with i := c.i + 1#31 }).putInStep b .feed) := by
    show execAbsorb _ = _
    rw [execAbsorb, input]
    rfl
  have counted := State.absorb_countsAgree counts b
  rw [coreStep_of_op (decodeSeq_of_feed rfl) run]
  by_cases full : s.pl = 63
  · rw [State.putInStep_walking_of_eq (s := s.counted) _ _ _ _ full, seqControl_absorb_walking_loadw]
    refine KeepsInv.next (State.walking_inv wf t_le (by decide) ⟨full, ⟨cmd, feeds, pos, fin⟩, ?_, next_i⟩)
    have filled : (s.absorb b).pl.val = 0 := by rw [State.absorb_pl, full]; rfl
    rwa [State.countsAgree, filled, State.absorb_tb] at counted
  · rw [State.putInStep_walking_of_ne (s := s.counted) _ _ _ _ full, seqControl_absorb_walking_feed]
    refine KeepsInv.next (State.fedOn_inv ?_ ?_ ⟨cmd, feeds, pos, ?_⟩ counted)
    · exact (congrArg Memory.wf (State.absorb_mem s b)).trans wf
    · exact State.putByte_t_le (s := s.counted) t_le b
    · exact (State.putByte_fin s.counted b).trans fin

omit t_le in
/-- R187, the row `LOADW`. -/
theorem coreStep_loadw_keepsInv (runs : (s.walking .loadw c).blockRuns) :
    KeepsInv (coreStep (s.walking .loadw c)) := by
  have run : coreStep (s.walking .loadw c) = .next (s.loadWords.walking .round c) :=
    coreStep_of_op (decodeSeq_of_loadw rfl) rfl
  rw [run]
  exact KeepsInv.next (State.walking_inv wf (by simp) (by decide) ⟨runs, by simp⟩)

omit t_le in
/-- R187, the row `ROUND`. -/
theorem coreStep_round_keepsInv (runs : (s.walking .round c).blockRuns) (lt : s.dp.t.toNat < 80) :
    KeepsInv (coreStep (s.walking .round c)) := by
  have next_t : s.dp.turn.t.toNat = s.dp.t.toNat + 1 := by
    rw [Datapath.turn_t, BitVec.toNat_add, show (1#7).toNat = 1 from rfl]
    omega
  rw [coreStep_of_round (s := s.walking .round c) rfl lt, State.walking_dp]
  have t_le : s.dp.turn.t.toNat ≤ 80 := by omega
  by_cases last : s.dp.t.toNat = 79
  · have done : s.dp.turn.t.toNat = 80 := by omega
    rw [if_pos last]
    exact KeepsInv.next (State.walking_inv (s := { s with dp := s.dp.turn }) (p := .addback) wf t_le (by decide)
      ⟨runs, done⟩)
  · have more : s.dp.turn.t.toNat < 80 := by omega
    rw [if_neg last]
    exact KeepsInv.next (State.walking_inv (s := { s with dp := s.dp.turn }) (p := .round) wf t_le (by decide)
      ⟨runs, more⟩)

/-- R187, the rows `ADDBACK`. -/
theorem coreStep_addback_keepsInv (runs : (s.walking .addback c).blockRuns) :
    KeepsInv (coreStep (s.walking .addback c)) := by
  obtain ⟨-, runs⟩ := runs
  have run : coreStep (s.walking .addback c) = .next (s.addBack.walking c.resume.phase c).blockDone :=
    coreStep_of_op (decodeSeq_of_addback rfl) rfl
  rw [run]
  cases resume : c.resume with
  | feed =>
    simp only [State.walking_scratch, resume] at runs
    obtain ⟨runs, counts, -⟩ := runs
    rw [Resume.phase, State.blockDone_of_feed _ resume]
    exact KeepsInv.next (State.fedOn_inv wf t_le runs counts)
  | pad =>
    simp only [State.walking_scratch, resume] at runs
    obtain ⟨runs, stands⟩ := runs
    rw [Resume.phase, State.blockDone_of_pad _ resume, padPhase]
    split
    · exact KeepsInv.next (State.walking_inv wf t_le (by decide) ⟨runs, rfl⟩)
    · next more =>
      have zeros : c.pad = .zeros := stands.resolve_right fun e => more ⟨rfl, e⟩
      refine KeepsInv.next (State.walking_inv wf t_le (by decide) ⟨runs, ?_⟩)
      rw [State.padStands, State.walking_scratch, zeros]
      trivial

/-- R187, the rows `PAD`. -/
theorem coreStep_pad_keepsInv (runs : (s.walking .pad c).finishRuns) (stands : (s.walking .pad c).padStands) :
    KeepsInv (coreStep (s.walking .pad c)) := by
  obtain ⟨b, p, next, full_next, ne_next⟩ := PadStep.next_of_stands stands
  have run : exec .pad (s.walking .pad c) = .next ((s.walking .pad { c with pad := p }).putInStep b .pad) := by
    show execPad _ = _
    rw [execPad, State.walking_scratch, State.walking_pl, State.walking_tb, next]
    rfl
  rw [coreStep_of_op (decodeSeq_of_pad rfl) run]
  by_cases full : s.pl = 63
  · rw [State.putInStep_walking_of_eq _ _ _ _ full]
    exact KeepsInv.next (State.walking_inv wf t_le (by decide) ⟨full, runs, full_next full⟩)
  · rw [State.putInStep_walking_of_ne _ _ _ _ full]
    refine KeepsInv.next (State.walking_inv ?_ (State.putByte_t_le t_le b) (by decide) ⟨runs, ?_⟩)
    · exact (congrArg Memory.wf (State.putByte_mem s b)).trans wf
    · exact ne_next full

/-- R187, the row `OUT`. -/
theorem coreStep_out_keepsInv : KeepsInv (coreStep (s.walking .out c)) := by
  have stored : (s.serialise.walking .out c).storeOut.mem.wf = true := State.wf_storeOut wf
  have t_kept : (s.serialise.walking .out c).storeOut.dp = s.dp := by
    rcases (s.serialise.walking .out c).storeOut_eq with ⟨-, e⟩ | e <;> rw [e] <;> rfl
  have run : coreStep (s.walking .out c) = .next (s.serialise.walking .out c).storeOut.finishEnd := by
    rw [coreStep, decodeSeq_of_out rfl]
    rfl
  rw [run]
  exact KeepsInv.next (State.finishEnd_inv stored (t_kept ▸ t_le))

end

end

/-- Every step of the core keeps the invariant and stops at no fault. -/
theorem State.Inv.coreStep_keepsInv {s : State} (inv : s.Inv) : KeepsInv (coreStep s) := by
  cases busy : s.busy with
  | false => rw [coreStep_of_idle (inv.phase_of_idle busy)]; exact inv
  | true =>
    obtain ⟨u, p, c, rfl⟩ := State.exists_walking busy
    obtain ⟨wf, idle_iff, t_le, now⟩ := inv
    cases p with
    | idle => exact absurd (idle_iff.2 rfl) (by simp [busy])
    | check =>
      obtain ⟨counts, fresh⟩ := now
      have run : coreStep (u.walking .check c) = checkStep (u.walking .check c) := by
        rw [coreStep, decodeSeq_of_check rfl]
      rw [run]
      exact checkStep_keepsInv wf t_le counts fresh
    | feed =>
      obtain ⟨runs, counts, remains⟩ := now
      exact coreStep_feed_keepsInv wf t_le runs counts remains
    | loadw => exact coreStep_loadw_keepsInv wf now
    | round => exact coreStep_round_keepsInv wf now.1 now.2
    | addback => exact coreStep_addback_keepsInv wf t_le now.1
    | pad => exact coreStep_pad_keepsInv wf t_le now.1 now.2
    | out => exact coreStep_out_keepsInv wf t_le

/-! ### The host's accesses -/

section
variable {s : State} (inv : s.Inv)
include inv

theorem State.Inv.hostIssue_keepsInv (w : Word) : KeepsInv (hostIssue w s) := by
  cases busy : s.busy with
  | true => rw [hostIssue, if_pos busy]; trivial
  | false =>
    rw [hostIssue, if_neg (by simp [busy])]
    exact (inv.resting_of_idle busy).exec_command_keepsInv (isCommand_decodeCmd w)

/-- R187, the row `IDLE`: the accepted `CMD` write enters `CHECK`; the other writes touch no state the invariant
speaks of. -/
theorem State.Inv.writeReg (idle : s.busy = false) (off : Nat) (v : Word) : (s.writeReg off v).Inv := by
  by_cases cmd : off = 0
  · subst cmd
    obtain ⟨wf, t_le, counts, fresh⟩ := inv.resting_of_idle idle
    exact State.walking_inv (p := .check) wf t_le (by decide) ⟨counts, fresh⟩
  · rw [State.writeReg_of_ne_cmd s v cmd]
    exact inv

theorem State.Inv.hostWrite_keepsInv (a : RegAccess) (v : Word) : KeepsInv (hostWrite a v s) := by
  unfold hostWrite
  split_ifs with bad busy wraps
  · trivial
  · trivial
  · trivial
  · exact inv.writeReg (Bool.eq_false_iff.2 busy) a.off v

theorem State.Inv.hostRead_keepsInv (a : RegAccess) : KeepsInv (hostRead a s) := by
  obtain ⟨v, n, read, -⟩ := s.readReg_eq a.off
  unfold hostRead
  split_ifs with bad busy
  · trivial
  · trivial
  · rw [read]
    exact inv

theorem State.Inv.hostLoad_keepsInv (addr : Word) : KeepsInv (hostLoad addr s) := by
  unfold hostLoad
  split_ifs with forbidden
  · trivial
  · exact inv

theorem State.Inv.hostStore_keepsInv (addr : Word) (b : Byte) : KeepsInv (hostStore addr b s) := by
  obtain ⟨wf, now⟩ := inv
  unfold hostStore
  split_ifs with forbidden
  · trivial
  · exact ⟨Memory.wf_write addr.isLt wf, now⟩

/-- R230, R42: the reset event leaves an idle core with the initial digest state. -/
theorem State.Inv.hardReset : s.hardReset.Inv :=
  State.Resting.idle
    ⟨wf_memAfterReset inv.1, (by decide : (0#7).toNat ≤ 80), rfl, fun fin => nomatch fin⟩ rfl rfl

/-- Every step keeps the invariant and stops at no fault, whatever the host does next. -/
theorem State.Inv.step_keepsInv : KeepsInv (step s) := by
  have taken (rest : List HostAction) : State.Inv { s with host := rest } := inv
  unfold step
  split
  next => exact inv.coreStep_keepsInv
  next rest _ => exact (taken rest).coreStep_keepsInv
  next rest _ =>
    split
    · exact inv.coreStep_keepsInv
    · exact KeepsInv.next (taken rest)
  next w rest _ => exact (taken rest).hostIssue_keepsInv w
  next a v rest _ => exact (taken rest).hostWrite_keepsInv a v
  next a rest _ => exact (taken rest).hostRead_keepsInv a
  next addr rest _ => exact (taken rest).hostLoad_keepsInv addr
  next addr b rest _ => exact (taken rest).hostStore_keepsInv addr b
  next rest _ => exact KeepsInv.next (taken rest).hardReset

end

/-! ### The obligations -/

/-- Settles O48: an idle core with an empty memory and the initial digest state. -/
theorem invariantHoldsAtReset : Obligations.InvariantHoldsAtReset :=
  State.Resting.idle ⟨wf_reset, by decide, rfl, fun fin => nomatch fin⟩ rfl rfl

/-- Settles O49: the answer of every step keeps the invariant. -/
theorem everyStepKeepsTheInvariant : Obligations.EveryStepKeepsTheInvariant :=
  fun _ _ inv run => inv.step_keepsInv.inv_of_next run

end Sys2Proof.Machine

/-! ## Accesses to the caller buffer (spec/20_memory.md R61, R62, R72) -/

namespace Sys2Proof.Machine

/-! ### A machine of the invariant meets no undefined access -/

theorem KeepsInv.ne_fault {r : Result} (keeps : KeepsInv r) (f : Fault) : r ≠ .fault f := by
  rintro rfl
  exact keeps

/-- Settles O50: an answer that keeps the invariant is no fault. -/
theorem noStepIsStuck : Obligations.NoStepIsStuck :=
  fun _ f inv => inv.step_keepsInv.ne_fault f

/-! ### The launch premise (R61) -/

/-- R120, R124: a launched `UPDATE` whose checks let no byte be moved ends at once. -/
theorem exec_update_ends {p : Bool} {s : State} (launch : s.opr.launches p = true)
    (ends : updateCheck p s.opr ≠ .run) : ∃ e, exec (.update p) s = .next (s.complete e) := by
  show ∃ e, execUpdate p s = _
  rw [execUpdate]
  cases verdict : updateCheck p s.opr with
  | raise e => exact ⟨e, rfl⟩
  | nothing => exact ⟨.ok, rfl⟩
  | run => exact absurd verdict ends
  | wraps => exact absurd launch (by simp [updateCheck_eq_wraps.1 verdict])

/-- R120, R127: a launched `FINISHTO` whose checks fail ends at once. -/
theorem exec_finishto_ends {p : Bool} {s : State} (launch : s.opr.launches p = true)
    (ends : finishtoCheck p s.opr ≠ .run) : ∃ e, exec (.finishto p) s = .next (s.complete e) := by
  show ∃ e, execFinishto p s = _
  rw [execFinishto]
  cases verdict : finishtoCheck p s.opr with
  | raise e => exact ⟨e, rfl⟩
  | nothing => exact absurd verdict finishtoCheck_ne_nothing
  | run => exact absurd verdict ends
  | wraps => exact absurd launch (by simp [finishtoCheck_eq_wraps.1 verdict])

/-- The premise binds the commands with a present buffer only. -/
theorem Operands.launches_absent (o : Operands) : o.launches false = true := rfl

theorem Operands.launches_present_of_wraps {o : Operands} (wraps : 2 ^ 32 < o.bufbase.toNat + o.bufsize.toNat) :
    o.launches true = false := by
  rw [Bool.eq_false_iff, ne_eq, Operands.launches_iff]
  exact fun fits => absurd (fits rfl) (Nat.not_le.2 wraps)

/-- Settles O25: with a present buffer the premise is broken; with an absent one it holds, and no byte is moved. -/
theorem wrappingBufferIsRefused : Obligations.WrappingBufferIsRefused := by
  intro s wraps
  have broken := Operands.launches_present_of_wraps wraps
  have launch := s.opr.launches_absent
  refine ⟨exec_update_of_not_launches broken, exec_finishto_of_not_launches broken, ?update, ?finishto⟩
  case update =>
    obtain ⟨e, run⟩ := exec_update_ends launch fun run => nomatch (updateCheck_eq_run.1 run).1
    exact ⟨e, _, run⟩
  case finishto =>
    obtain ⟨e, run⟩ := exec_finishto_ends launch fun run => nomatch (finishtoCheck_eq_run.1 run).1
    exact ⟨e, _, run⟩

/-! ### Where `MemRead` is not defined (R62) -/

theorem bufferIndexDefined_iff {p : Bool} {o : Operands} {idx : Int} :
    bufferIndexDefined p o idx = true ↔ p = true ∧ 0 ≤ idx ∧ idx < o.size := by
  rw [bufferIndexDefined, Bool.and_eq_true, decide_eq_true_iff]

theorem State.nextInput_of_undefined {s : State}
    (undefined : ¬ bufferIndexDefined (pField s.scratch.cmd) s.scratch.opr
      (s.scratch.opr.off + s.scratch.i.toNat) = true) : s.nextInput = none :=
  if_neg undefined

theorem exec_absorb_of_no_input {s : State} (noInput : s.nextInput = none) :
    exec .absorb s = .fault .noInputByte := by
  show execAbsorb s = _
  rw [execAbsorb, noInput]

/-- Settles O42: each of the three ways out of the domain of `MemRead` leaves no next input byte. -/
theorem absorbWithoutAnInputByteStops : Obligations.AbsorbWithoutAnInputByteStops := by
  intro s undefined
  refine exec_absorb_of_no_input (State.nextInput_of_undefined fun defined => ?_)
  obtain ⟨present, lower, upper⟩ := bufferIndexDefined_iff.1 defined
  rcases undefined with absent | below | past
  · exact absurd present (ne_true_of_eq_false absent)
  · exact absurd lower (Int.not_le.2 below)
  · exact absurd upper (Int.not_lt.2 past)

end Sys2Proof.Machine

/-! ## Command words, sequencer words and what they decode to (spec/30_encoding.md R91 to R99) -/

namespace Sys2Proof.Machine

/-! ### The reserved field of a command word (R91, R93) -/

/-- R93: the decoder's mask clears bit 3 only, so no reserved bit is lost. -/
theorem rsvField_and_mask (w : Word) : rsvField (w &&& 0xFFFFFFF7#32) = rsvField w := by
  have kept : BitVec.extractLsb' 4 28 0xFFFFFFF7#32 = BitVec.allOnes 28 := by decide
  rw [rsvField, BitVec.extractLsb'_and, kept, BitVec.and_allOnes, rsvField]

/-- R93: with a reserved bit set, the masked word is none of the opcodes. -/
theorem and_mask_ne_of_rsv {w k : Word} (rsv : rsvField w ≠ 0#28) (opcode : k.toNat < 16) :
    w &&& 0xFFFFFFF7#32 ≠ k := by
  rintro rfl
  exact rsv (rsvField_and_mask w ▸ (rsvField_eq_zero _).2 opcode)

theorem isIllegalWord_iff {w : Word} : isIllegalWord w = true ↔ rsvField w ≠ 0#28 ∨ 6 ≤ (opField w).toNat := by
  rw [isIllegalWord, Bool.or_eq_true, bne_iff_ne, decide_eq_true_iff, rsvField, opField]

theorem decodeCmd_of_rsv {w : Word} (rsv : rsvField w ≠ 0#28) : decodeCmd w = .illegal w :=
  decodeCmd_of_illegal (isIllegalWord_iff.2 (.inl rsv))

/-- R91: with no reserved bit set, a command word is made of its `OP` and `P`. -/
theorem exists_cmdWord_of_rsv {w : Word} (rsv : rsvField w = 0#28) : ∃ op p, w = cmdWord op p := by
  have words : ∀ n : Fin 16, ∃ op p, BitVec.ofNat 32 n.val = cmdWord op p := by decide
  obtain ⟨op, p, h⟩ := words ⟨w.toNat, (rsvField_eq_zero w).1 rsv⟩
  exact ⟨op, p, by rw [← h, BitVec.ofNat_toNat, BitVec.setWidth_eq]⟩

/-- Settles O2: a reserved bit survives the mask and matches no row; else the word is one of the sixteen that `OP`
and `P` make. -/
theorem commandWordDecodesByItsMask : Obligations.CommandWordDecodesByItsMask := by
  intro w
  by_cases rsv : rsvField w = 0#28
  · obtain ⟨op, p, rfl⟩ := exists_cmdWord_of_rsv rsv
    clear rsv
    revert op p
    decide
  · rw [decodeCmd_of_rsv rsv]
    simp [and_mask_ne_of_rsv rsv]

/-- Settles O3: a word with a reserved bit set is the illegal command's own word; else the word is one of the sixteen
that `OP` and `P` make. -/
theorem encodeOfDecodeGivesTheWord : Obligations.EncodeOfDecodeGivesTheWord := by
  intro w
  by_cases rsv : rsvField w = 0#28
  · obtain ⟨op, p, rfl⟩ := exists_cmdWord_of_rsv rsv
    clear rsv
    revert op p
    decide
  · rw [decodeCmd_of_rsv rsv]
    exact ⟨isIllegalWord_iff.2 (.inl rsv), .inl rfl⟩

/-- Settles O4: the decoder evaluates each of the fourteen words. -/
theorem sampleWordsDecode : Obligations.SampleWordsDecode := by
  unfold Obligations.SampleWordsDecode
  decide

/-- Settles O19: an illegal word decodes to the illegal command, whose meaning is the end of a command alone. -/
theorem illegalWordOnlySetsErr : Obligations.IllegalWordOnlySetsErr := by
  intro s w h
  exact ⟨decodeCmd_of_illegal (isIllegalWord_iff.2 h), _,
    congrArg Host.Outcome.next (s.complete_eq_ended .illegalCommand)⟩

/-! ### The `ROUND` rows of the sequencer's table (R99) -/

section
variable {t : BitVec 7}

theorem stageInstr_of_lt_20 (lt : t.toNat < 20) : stageInstr t = .round1 t := if_pos lt

theorem stageInstr_of_lt_40 (ge : 20 ≤ t.toNat) (lt : t.toNat < 40) : stageInstr t = .round2 t := by
  rw [stageInstr, if_neg (by omega), if_pos lt]

theorem stageInstr_of_lt_60 (ge : 40 ≤ t.toNat) (lt : t.toNat < 60) : stageInstr t = .round3 t := by
  rw [stageInstr, if_neg (by omega), if_neg (by omega), if_pos lt]

theorem stageInstr_of_ge_60 (ge : 60 ≤ t.toNat) : stageInstr t = .round4 t := by
  rw [stageInstr, if_neg (by omega), if_neg (by omega), if_neg (by omega)]

theorem roundOps_of_lt_16 (lt : t.toNat < 16) : roundOps t = .ok [stageInstr t] := by
  rw [roundOps_of_lt (by omega), if_pos lt]

theorem roundOps_of_ge_16 (ge : 16 ≤ t.toNat) (lt : t.toNat < 80) : roundOps t = .ok [.sched t, stageInstr t] := by
  rw [roundOps_of_lt lt, if_neg (by omega)]

theorem roundOps_of_ge_80 (ge : 80 ≤ t.toNat) : roundOps t = .error .unreached := by
  unfold roundOps
  iterate 5 rw [if_neg (by omega)]

/-- The word of `PHASE = ROUND` selects by `T` alone. -/
theorem decode_seqWord_round (t : BitVec 7) : decode (.seq (seqWord 4 t)) = roundOps t := by
  simp [decode, decodeSeq]

/-- The round of its stage runs at every `T` of the schedule. -/
theorem decode_round_runs_stage {i : Instr} (stage : stageInstr t = i) (lt : t.toNat < 80) :
    ∃ ops, decode (.seq (seqWord 4 t)) = .ok ops ∧ i ∈ ops := by
  rw [decode_seqWord_round, ← stage]
  by_cases early : t.toNat < 16
  · exact ⟨_, roundOps_of_lt_16 early, by simp⟩
  · exact ⟨_, roundOps_of_ge_16 (by omega) lt, by simp⟩

end

/-! ### Decoding an encoding -/

/-- R90: the instructions of format CMD are the ones with a command word. -/
theorem exists_cmd_of_isCommand {i : Instr} (cmd : isCommand i = true) : ∃ w, encode i = .cmd w := by
  cases i with
  | getdlen | getblen | reset | update | finish | finishto | illegal => exact ⟨_, rfl⟩
  | _ => cases cmd

/-- R98, R99: the word of a well-formed micro-operation selects a step that runs it. -/
theorem decode_encode_microOperation {i : Instr} (wf : i.wellFormed = true) (micro : ¬ isCommand i = true)
    (selected : ∀ b, i ≠ .putbyte b) : ∃ ops, decode (encode i) = .ok ops ∧ i ∈ ops := by
  cases i with
  | getdlen | getblen | reset | update | finish | finishto | illegal => exact absurd rfl micro
  | absorb => exact ⟨[.absorb], by decide, by decide⟩
  | loadw => exact ⟨[.loadw], by decide, by decide⟩
  | addback => exact ⟨[.addback], by decide, by decide⟩
  | pad => exact ⟨[.pad], by decide, by decide⟩
  | serialise | reinit => exact ⟨[.serialise, .reinit], by decide, by decide⟩
  | round1 t =>
    have lt : t.toNat < 20 := of_decide_eq_true wf
    exact decode_round_runs_stage (stageInstr_of_lt_20 lt) (by omega)
  | round2 t =>
    obtain ⟨ge, lt⟩ : 20 ≤ t.toNat ∧ t.toNat < 40 := of_decide_eq_true wf
    exact decode_round_runs_stage (stageInstr_of_lt_40 ge lt) (by omega)
  | round3 t =>
    obtain ⟨ge, lt⟩ : 40 ≤ t.toNat ∧ t.toNat < 60 := of_decide_eq_true wf
    exact decode_round_runs_stage (stageInstr_of_lt_60 ge lt) (by omega)
  | round4 t =>
    obtain ⟨ge, lt⟩ : 60 ≤ t.toNat ∧ t.toNat < 80 := of_decide_eq_true wf
    exact decode_round_runs_stage (stageInstr_of_ge_60 ge) lt
  | sched t =>
    obtain ⟨ge, lt⟩ : 16 ≤ t.toNat ∧ t.toNat < 80 := of_decide_eq_true wf
    exact ⟨_, (decode_seqWord_round t).trans (roundOps_of_ge_16 ge lt), by simp⟩
  | putbyte b => exact absurd rfl (selected b)

/-- Settles O1: a command by its word, a micro-operation by the step its sequencer word selects. -/
theorem decodeOfEncodeGivesTheInstruction : Obligations.DecodeOfEncodeGivesTheInstruction := by
  intro i wf selected
  split
  case isTrue cmd =>
    obtain ⟨w, word⟩ := exists_cmd_of_isCommand cmd
    rw [word, decode, decodeCmd_of_encode wf cmd word]
  case isFalse micro => exact decode_encode_microOperation wf micro selected

/-! ### The step runs what the sequencer word selects (R99, 42_buffering_padding.md R187) -/

theorem runOps_singleton (i : Instr) (s : State) :
    runOps [i] s = andThen (exec i s) fun a => .next (seqControl i a) := rfl

/-- A micro-operation to which the sequencer adds nothing. -/
theorem runOps_singleton_of_plain {i : Instr} (plain : ∀ a, seqControl i a = a) (s : State) :
    runOps [i] s = exec i s := by
  rw [runOps_singleton]
  cases exec i s with
  | next a => rw [andThen_next, plain]
  | fault | refused => rfl

/-- The sequencer's part of `FEED`: the last input byte completes the command. -/
theorem seqControl_absorb (a : State) : seqControl .absorb a =
    if a.phase = .feed ∧ ¬ (a.scratch.i.toNat : Int) < a.scratch.opr.len then a.complete .ok else a := by
  simp [seqControl, State.inputRemains]

section
variable {s : State} (host : s.host = []) (phase : s.phase = .round)
include host phase

/-- The step of the first sixteen rounds. -/
theorem step_of_round_lt_16 (lt : s.dp.t.toNat < 16) : step s = exec (.round1 s.dp.t) s := by
  rw [step_of_ops host ((decodeSeq_of_round phase).trans (roundOps_of_lt_16 lt)),
    runOps_singleton_of_plain (seqControl_stageInstr _), stageInstr_of_lt_20 (by omega)]

/-- The step of the other rounds: `SCHED`, then the round of the stage. -/
theorem step_of_round_ge_16 {i : Instr} (stage : stageInstr s.dp.t = i) (ge : 16 ≤ s.dp.t.toNat)
    (lt : s.dp.t.toNat < 80) : step s = andThen (exec (.sched s.dp.t) s) (exec i) := by
  rw [← stage, step_of_ops host ((decodeSeq_of_round phase).trans (roundOps_of_ge_16 ge lt)), runOps_cons]
  exact congrArg _ (funext fun a => runOps_singleton_of_plain (seqControl_stageInstr _) a)

/-- No step past the schedule. -/
theorem step_of_round_ge_80 (ge : 80 ≤ s.dp.t.toNat) : step s = .fault .unreachedSequencerWord := by
  rw [step_of_host_nil host, coreStep, decodeSeq_of_round phase, roundOps_of_ge_80 ge]

end

/-- Settles O6: phase by phase, the operations the word selects and what the sequencer adds to each. -/
theorem stepRunsTheSelectedMicroOperations : Obligations.StepRunsTheSelectedMicroOperations := by
  intro s host
  refine ⟨?feed, ?loadw, step_of_round_lt_16 host, ?stage0, ?stage1, ?stage2, ?stage3, step_of_round_ge_80 host,
    ?addback, ?pad, ?out⟩
  case feed =>
    intro phase
    simp only [step_of_ops host (decodeSeq_of_feed phase), runOps_singleton, seqControl_absorb]
  case loadw =>
    intro phase
    rw [step_of_ops host (decodeSeq_of_loadw phase), runOps_singleton_of_plain fun _ => rfl]
  case stage0 => exact fun phase ge lt => step_of_round_ge_16 host phase (stageInstr_of_lt_20 lt) ge (by omega)
  case stage1 =>
    exact fun phase ge lt => step_of_round_ge_16 host phase (stageInstr_of_lt_40 ge lt) (by omega) (by omega)
  case stage2 =>
    exact fun phase ge lt => step_of_round_ge_16 host phase (stageInstr_of_lt_60 ge lt) (by omega) (by omega)
  case stage3 => exact fun phase ge lt => step_of_round_ge_16 host phase (stageInstr_of_ge_60 ge) (by omega) lt
  case addback =>
    intro phase
    rw [step_of_ops host (decodeSeq_of_addback phase), runOps_singleton]
    refine congrArg _ (funext fun a => congrArg Host.Outcome.next ?_)
    show a.blockDone = _
    rw [State.blockDone]
    cases a.scratch.resume <;> simp [State.inputRemains]
  case pad =>
    intro phase
    rw [step_of_ops host (decodeSeq_of_pad phase), runOps_singleton_of_plain fun _ => rfl]
  case out =>
    intro phase
    rw [step_of_ops host (decodeSeq_of_out phase)]
    rfl

end Sys2Proof.Machine

/-! ## The commands, each one atomic transition (spec/40_commands.md R120 to R128) -/

namespace Sys2Proof.Machine

/-! ### Commands that move no byte -/

/-- Settles O16: the end of the command is the model's `complete`. -/
theorem getdlenReturnsTwenty : Obligations.GetdlenReturnsTwenty :=
  fun _ => ⟨_, congrArg Host.Outcome.next (State.complete_eq_ended _ .ok)⟩

/-- Settles O17, as O16. -/
theorem getblenReturnsSixtyFour : Obligations.GetblenReturnsSixtyFour :=
  fun _ => ⟨_, congrArg Host.Outcome.next (State.complete_eq_ended _ .ok)⟩

/-- Settles O18: `REINIT` and the end of the command. -/
theorem resetRestoresTheInitialDigestState : Obligations.ResetRestoresTheInitialDigestState :=
  fun _ => ⟨_, congrArg Host.Outcome.next (State.complete_eq_ended _ .ok)⟩

/-- R124 steps 2 and 4. -/
theorem exec_update_of_nothing {p : Bool} {s : State} (nothing : updateCheck p s.opr = .nothing) :
    exec (.update p) s = .next (s.complete .ok) := by
  show execUpdate p s = _
  simp only [execUpdate, nothing]

/-- R124 steps 5 and 6. -/
theorem exec_update_of_run {p : Bool} {s : State} (run : updateCheck p s.opr = .run) :
    exec (.update p) s = .next (({ s with fin := false }.absorbAll (inputBytes s.opr s.mem)).complete .ok) := by
  show execUpdate p s = _
  simp only [execUpdate, run]

/-- Settles O21: with these operands the checks let the command succeed without moving a byte. -/
theorem zeroLengthUpdateChangesNothing : Obligations.ZeroLengthUpdateChangesNothing := by
  intro s p length off present
  have len : s.opr.len = 0 := by rw [Operands.len, length]; rfl
  have nothing : updateCheck p s.opr = .nothing :=
    updateCheck_eq_nothing.2 ⟨Operands.launches_iff.2 fun h => (present h).1, off, len, fun h => (present h).2⟩
  exact ⟨_, (exec_update_of_nothing nothing).trans (congrArg Host.Outcome.next (s.complete_eq_ended .ok))⟩

/-! ### What message and padding bytes write (42_buffering_padding.md R181 to R183) -/

/-- `s` with all that message and padding bytes read and write (`H`, `PB`, `PL`, `TB`, `V`, `W`, `T`) taken
from `r`. -/
def State.withHashOf (s r : State) : State :=
  { s with h := r.h, pb := r.pb, pl := r.pl, tb := r.tb, dp := r.dp }

theorem State.withHashOf_withHashOf (s r u : State) : (s.withHashOf r).withHashOf u = s.withHashOf u := rfl

theorem State.withHashOf_of_withHashOf (s r u : State) : s.withHashOf (r.withHashOf u) = s.withHashOf u := rfl

theorem State.compress_withHashOf (s r : State) : (s.withHashOf r).compress = s.withHashOf r.compress := by
  unfold State.compress
  show State.addBack { s.withHashOf r with dp := Datapath.turns Config.nRounds (r.dp.load r.h r.pb) } = _
  generalize Datapath.turns Config.nRounds (r.dp.load r.h r.pb) = d
  rfl

/-- A byte reads and writes nothing else. -/
theorem State.putByte_withHashOf (s r : State) (b : Byte) :
    (s.withHashOf r).putByte b = s.withHashOf (r.putByte b) := by
  by_cases full : r.pl = 63
  · have filled := s.compress_withHashOf (r.putCell b)
    rw [State.putByte_of_eq full, State.putByte_of_eq (s := s.withHashOf r) full]
    show { (s.withHashOf (r.putCell b)).compress with pl := 0 } = _
    rw [filled]
    generalize (r.putCell b).compress = u
    rfl
  · rw [State.putByte_of_ne full, State.putByte_of_ne (s := s.withHashOf r) full]
    rfl

theorem State.absorb_withHashOf (s r : State) (b : Byte) :
    (s.withHashOf r).absorb b = s.withHashOf (r.absorb b) := s.putByte_withHashOf r.counted b

theorem State.putAll_withHashOf (s r : State) (bs : List Byte) :
    (s.withHashOf r).putAll bs = s.withHashOf (r.putAll bs) := by
  induction bs generalizing r with
  | nil => rfl
  | cons b bs ih => rw [State.putAll_cons, State.putAll_cons, State.putByte_withHashOf, ih]

theorem State.absorbAll_withHashOf (s r : State) (bs : List Byte) :
    (s.withHashOf r).absorbAll bs = s.withHashOf (r.absorbAll bs) := by
  induction bs generalizing r with
  | nil => rfl
  | cons b bs ih => rw [State.absorbAll_cons, State.absorbAll_cons, State.absorb_withHashOf, ih]

/-- The frame of a sequence of message bytes. -/
theorem State.absorbAll_eq_withHashOf (s : State) (bs : List Byte) :
    s.absorbAll bs = s.withHashOf (s.absorbAll bs) := s.absorbAll_withHashOf s bs

/-- The frame of `PAD`. -/
theorem State.padAll_eq_withHashOf (s : State) : s.padAll = s.withHashOf s.padAll := by
  rw [State.padAll_eq_putAll]
  exact s.putAll_withHashOf s _

/-- R27: `V`, `W`, `T` stay while no block fills. -/
theorem State.absorbAll_dp_of_lt {s : State} {bs : List Byte} (lt : s.pl.val + bs.length < 64) :
    (s.absorbAll bs).dp = s.dp := by
  induction bs generalizing s with
  | nil => rfl
  | cons b bs ih =>
    rw [List.length_cons] at lt
    have open_block : s.counted.pl ≠ 63 := fun full => by
      have pl : s.pl.val = 63 := congrArg Fin.val full
      omega
    have pl : (s.absorb b).pl.val = s.pl.val + 1 := by
      rw [State.absorb_pl]
      exact val_add_one_of_ne open_block
    rw [State.absorbAll_cons, ih (by omega), State.absorb_eq_putByte, State.putByte_of_ne open_block]
    rfl

/-! ### `UPDATE` (R124) -/

/-- R61, R70: an admitted `UPDATE` reads the bytes from `BUFBASE + off` on. -/
theorem inputBytes_of_feeds {o : Operands} (feeds : o.feeds) (m : Memory) :
    inputBytes o m = (List.range o.len.toNat).map fun i => m.read (o.bufbase.toNat + o.off.toNat + i) := by
  obtain ⟨off, len, bound, fits⟩ := feeds
  refine List.map_congr_left fun i hi => ?_
  have lt : i < o.len.toNat := List.mem_range.1 hi
  rw [memRead_eq fits (by omega), Nat.add_assoc]

/-- Settles O22: the state it ends in has absorbed the input bytes, and stands where the pending bytes and they
lead. -/
theorem updateFeedsTheBytes : Obligations.UpdateFeedsTheBytes := by
  intro s feeds pos n bytes p
  have input : inputBytes s.opr s.mem = bytes := inputBytes_of_feeds feeds s.mem
  have len : bytes.length = n := by simp [bytes]
  have total : (s.pending ++ bytes).length = p + n := by rw [List.length_append, len, s.pending_length]
  have run := exec_update_of_run (updateCheck_eq_run.2 ⟨rfl, feeds, pos⟩)
  rw [input] at run
  have stands : State.Stands s.h (s.pending ++ bytes) ({ s with fin := false }.absorbAll bytes) :=
    (State.stands_pending { s with fin := false }).absorbAll bytes
  have tb := State.absorbAll_tb { s with fin := false } bytes
  have dp := State.absorbAll_dp_of_lt (s := { s with fin := false }) (bs := bytes)
  have frame := State.absorbAll_eq_withHashOf { s with fin := false } bytes
  generalize State.absorbAll { s with fin := false } bytes = t at run stands tb dp frame
  refine ⟨t.complete .ok, Config.freeScratch s.draws, run, ?pl, len ▸ tb, ?fin, stands.h_eq, ?pending, ?dp, ?frame⟩
  case pl => exact total ▸ stands.pl_eq
  case fin => rw [frame]; rfl
  case pending => exact total ▸ stands.pending_eq
  case dp => exact fun lt => dp (len ▸ lt)
  case frame => rw [frame]; exact State.complete_eq_ended _ .ok

/-! ### `FINISH` and `FINISHTO` (R125, R126, R127) -/

/-- Settles O23: `PAD` leads to the digest in closed form and writes nothing else that the command leaves. -/
theorem finishDeliversTheDigest : Obligations.FinishDeliversTheDigest := by
  intro s
  refine ⟨s.finished.finishEnd, Config.freeScratch s.draws, exec_finish s, ?digest, ?frame⟩
  case digest => rw [State.finishEnd_dout, State.finished_dout]
  case frame =>
    rw [State.finished, State.padAll_eq_withHashOf]
    generalize s.padAll = r
    exact State.complete_eq_ended _ .ok

/-- R61: under the launch premise the output bytes stand at `BUFBASE + off + j`. -/
theorem Operands.addr_of_receives {o : Operands} (receives : o.receives) {j : Nat} (lt : j < 20) :
    o.addr (o.off.toNat + j) = o.bufbase.toNat + o.off.toNat + j := by
  obtain ⟨off, bound, fits⟩ := receives
  rw [Operands.size] at bound
  rw [Operands.addr_eq (by omega), Nat.add_assoc]

/-- R67: digest byte `4i + k` is byte `k` of word `i`, most significant first. -/
theorem digestByte_eq (d : Vector Word 5) (i : Fin 5) {k : Nat} (lt : k < 4) :
    digestByte d (4 * i.val + k) = d[i].extractLsb' (24 - 8 * k) 8 := by
  have word : (4 * i.val + k) / 4 = i.val := by omega
  have byte : (4 * i.val + k) % 4 = k := by omega
  simp [digestByte, byteOf, word, byte]

/-- Settles O24: the command ends as `FINISH` does, with the 20 stores made in memory. -/
theorem finishtoStoresTheDigest : Obligations.FinishtoStoresTheDigest := by
  intro s receives wf
  refine ⟨s.finished.finishEnd, storeDigest s.opr s.finished.dout s.mem, exec_finish s, ?ends, wf_storeDigest wf,
    ?stored, ?others⟩
  case ends =>
    have run := execFinishto_of_run (finishtoCheck_eq_run.2 ⟨rfl, receives⟩)
    generalize storeDigest s.opr s.finished.dout s.mem = m at run ⊢
    generalize s.finished = u at run ⊢
    exact run
  case stored =>
    intro i k lt
    have inside : 4 * i.val + k < 20 := by omega
    rw [← Operands.addr_of_receives receives inside, storeDigest, read_storeRange_at inside wf,
      digestByte_eq _ i lt, State.finishEnd_dout]
  case others =>
    intro a outside
    exact read_storeRange_other fun j lt => Operands.addr_of_receives receives lt ▸ outside j lt

/-! ### `UPDATE`s of adjoining ranges (R128) -/

/-- `s` after an admitted `UPDATE` of any length with operands `o`: it has absorbed its bytes, and has cleared `FIN`
unless there were none. -/
def State.updated (s : State) (o : Operands) : State :=
  (State.complete { s with opr := o, fin := s.fin && decide (o.len = 0) } .ok).withHashOf
    (s.absorbAll (inputBytes o s.mem))

theorem exec_update_eq_updated {o : Operands} (feeds : o.feeds) (s : State) :
    exec (.update true) { s with opr := o } = .next (s.updated o) := by
  by_cases pos : 0 < o.len
  · have ne : ¬ o.len = 0 := by omega
    have bytes := State.absorbAll_withHashOf { s with opr := o, fin := false } s (inputBytes o s.mem)
    have run : updateCheck true o = .run := updateCheck_eq_run.2 ⟨rfl, feeds, pos⟩
    rw [exec_update_of_run (s := { s with opr := o }) run, State.updated, decide_eq_false ne, Bool.and_false]
    exact congrArg (fun u : State => Host.Outcome.next (u.complete .ok)) bytes
  · obtain ⟨off, len, bound, fits⟩ := feeds
    have zero : o.len = 0 := by omega
    have empty : inputBytes o s.mem = [] := List.eq_nil_of_length_eq_zero (by simp [zero])
    have nothing : updateCheck true o = .nothing :=
      updateCheck_eq_nothing.2 ⟨Operands.launches_iff.2 fun _ => fits, off, zero, fun _ => by omega⟩
    rw [exec_update_of_nothing (s := { s with opr := o }) nothing, State.updated, decide_eq_true zero,
      Bool.and_true, empty]
    rfl

theorem updates_cons_of_feeds {o : Operands} (feeds : o.feeds) (os : List Operands) (s : State) :
    updates (o :: os) s = updates os (s.updated o) := by
  rw [updates, exec_update_eq_updated feeds, andThen_next]

/-- R128: what the bytes of two `UPDATE`s lead to is what the bytes of the one lead to. -/
theorem State.updated_updated {s : State} {o o₁ o₂ : Operands}
    (bytes : inputBytes o s.mem = inputBytes o₁ s.mem ++ inputBytes o₂ s.mem) :
    (s.updated o₁).updated o₂ = ((s.updated o₁).updated o₂).withHashOf (s.absorbAll (inputBytes o s.mem)) := by
  have second : (s.updated o₁).absorbAll (inputBytes o₂ s.mem) =
      (s.updated o₁).withHashOf (s.absorbAll (inputBytes o s.mem)) := by
    rw [State.updated, State.absorbAll_withHashOf, State.withHashOf_withHashOf, ← State.absorbAll_append, bytes]
  have mem : (s.updated o₁).mem = s.mem := rfl
  rw [State.updated, mem, second, State.withHashOf_of_withHashOf, State.withHashOf_withHashOf]

/-- The bytes of a range are those of its two adjoining parts. -/
theorem inputBytes_split {o o₁ o₂ : Operands} (m : Memory) (base₁ : o₁.bufbase = o.bufbase)
    (base₂ : o₂.bufbase = o.bufbase) (off₁ : o₁.off = o.off) (off₂ : o₂.off = o.off + o₁.len)
    (len : o.len = o₁.len + o₂.len) (off_nonneg : 0 ≤ o.off) (len₁ : 0 ≤ o₁.len) (len₂ : 0 ≤ o₂.len) :
    inputBytes o m = inputBytes o₁ m ++ inputBytes o₂ m := by
  have count : o.len.toNat = o₁.len.toNat + o₂.len.toNat := by omega
  have start : o₂.off.toNat = o.off.toNat + o₁.len.toNat := by omega
  simp [inputBytes, memRead, Operands.addr, count, start, base₁, base₂, off₁, List.range_add, Nat.add_assoc]

/-- Settles O27: the parts' bytes in turn are the bytes of the whole, and `FIN` stays only where both parts are
empty. -/
theorem splittingAnUpdateChangesNothing : Obligations.SplittingAnUpdateChangesNothing := by
  intro s o o₁ o₂ feeds feeds₁ feeds₂ base₁ base₂ off₁ off₂ len
  have ⟨off_nonneg, _⟩ := feeds
  have ⟨_, len₁, _⟩ := feeds₁
  have ⟨_, len₂, _⟩ := feeds₂
  have parts := State.updated_updated (inputBytes_split s.mem base₁ base₂ off₁ off₂ len off_nonneg len₁ len₂)
  refine ⟨s.updated o, (s.updated o₁).updated o₂, ?one, ?two, ?h, ?pb, ?pl, ?tb, ?fin, ?dp⟩
  case one => rw [updates_cons_of_feeds feeds, updates]
  case two => rw [updates_cons_of_feeds feeds₁, updates_cons_of_feeds feeds₂, updates]
  case h | pb | pl | tb | dp => rw [parts]; rfl
  case fin =>
    show (s.fin && decide (o.len = 0)) = ((s.fin && decide (o₁.len = 0)) && decide (o₂.len = 0))
    have empty : o.len = 0 ↔ o₁.len = 0 ∧ o₂.len = 0 := by omega
    rw [Bool.and_assoc, ← Bool.decide_and, decide_eq_decide.2 empty]

/-! ### `FINISH` and `RESET` before the same commands (R126) -/

/-- Settles O30: after either the digest state is the initial one, and the digests to come depend on no other. -/
theorem finishReinitialisesLikeReset : Obligations.FinishReinitialisesLikeReset := by
  intro s
  refine ⟨s.finished.finishEnd, State.complete { s.reinit with fin := false } .ok, exec_finish s, rfl, fun cs => ?_⟩
  have mem := s.finished_mem
  generalize s.finished = u at mem ⊢
  exact staleStateNeverReachesADigest _ _ cs (sameComputation_reinit mem)

end Sys2Proof.Machine

/-! ## The micro-operations of the compression function (spec/41_compression.md R150 to R164) -/

namespace Sys2Proof.Machine

/-! ### The primitives (R152 to R155) -/

theorem rotl_eq_rotateLeft {n : Nat} (lt : n < 32) (x : Word) : rotl n x = x.rotateLeft n := by
  rw [rotl, BitVec.rotateLeft_def, Nat.mod_eq_of_lt lt]

/-- Settles O32: a bit either stays below bit 32 or comes in again from bit 0. -/
theorem rotlMovesEachBit : Obligations.RotlMovesEachBit := by
  intro x n i _ n_lt i_lt
  rw [rotl_eq_rotateLeft n_lt, BitVec.getLsbD_rotateLeft, Nat.mod_eq_of_lt n_lt]
  rcases Nat.lt_or_ge (i + n) 32 with stays | wraps
  · rw [Nat.mod_eq_of_lt stays, decide_eq_false (by omega), decide_eq_true stays, Nat.add_sub_cancel]
    rfl
  · have again : (i + n) % 32 = i + n - 32 := by omega
    rw [again, decide_eq_true (by omega), show 32 - n + (i + n - 32) = i by omega]
    rfl

theorem getLsbD_ch {b c d : Word} {i : Nat} (lt : i < 32) :
    (ch b c d).getLsbD i = if b.getLsbD i then c.getLsbD i else d.getLsbD i := by
  rw [ch, BitVec.getLsbD_or, BitVec.getLsbD_and, BitVec.getLsbD_and, BitVec.getLsbD_not, decide_eq_true lt]
  cases b.getLsbD i <;> simp

theorem getLsbD_parity (b c d : Word) (i : Nat) :
    (parity b c d).getLsbD i = ((b.getLsbD i ^^ c.getLsbD i) ^^ d.getLsbD i) := by
  rw [parity, BitVec.getLsbD_xor, BitVec.getLsbD_xor]

theorem getLsbD_maj (b c d : Word) (i : Nat) : (maj b c d).getLsbD i =
    (b.getLsbD i && c.getLsbD i || b.getLsbD i && d.getLsbD i || c.getLsbD i && d.getLsbD i) := by
  rw [maj, BitVec.getLsbD_or, BitVec.getLsbD_or, BitVec.getLsbD_and, BitVec.getLsbD_and, BitVec.getLsbD_and]

/-- The exclusive or of three bits counts them modulo 2. -/
theorem xor_xor_eq_true_iff : ∀ x y z : Bool,
    ((x ^^ y) ^^ z) = true ↔ (x.toNat + y.toNat + z.toNat) % 2 = 1 := by decide

/-- Two of three bits are 1 where a pair of them is. -/
theorem pair_eq_true_iff : ∀ x y z : Bool,
    (x && y || x && z || y && z) = true ↔ 2 ≤ x.toNat + y.toNat + z.toNat := by decide

/-- Settles O33: each function works bit by bit, and a bit's truth table has eight rows. -/
theorem roundFunctionsFollowTheirTruthTables : Obligations.RoundFunctionsFollowTheirTruthTables := by
  intro b c d i lt
  rw [getLsbD_parity, getLsbD_maj]
  exact ⟨getLsbD_ch lt, xor_xor_eq_true_iff _ _ _, pair_eq_true_iff _ _ _⟩

/-! ### `LOADW` (R157) -/

theorem toNat_append_eq_add {m n : Nat} (x : BitVec m) (y : BitVec n) :
    (x ++ y).toNat = x.toNat * 2 ^ n + y.toNat := by
  rw [BitVec.toNat_append, ← Nat.shiftLeft_add_eq_or_of_lt y.isLt, Nat.shiftLeft_eq]

/-- 00_scope.md R9: the first byte is the most significant, and each counts as unsigned. -/
theorem be32_toNat (b0 b1 b2 b3 : Byte) : (be32 b0 b1 b2 b3).toNat =
    b0.toNat * 2 ^ 24 + b1.toNat * 2 ^ 16 + b2.toNat * 2 ^ 8 + b3.toNat := by
  simp only [be32, toNat_append_eq_add, Nat.add_assoc]

theorem Datapath.load_w_of_lt (h : Vector Word 5) (pb : Vector Byte 64) (d : Datapath) (t : Fin 16) :
    (d.load h pb).w[t.val] = blockWord pb t := by
  simp [Datapath.load]

theorem Datapath.load_w_of_ge (h : Vector Word 5) (pb : Vector Byte 64) (d : Datapath) {t : Fin 80}
    (ge : 16 ≤ t.val) : (d.load h pb).w[t] = d.w[t] := by
  simp [Datapath.load, Nat.not_lt.2 ge]

/-- Settles O34: the words below 16 come from the block, and `be32` counts its bytes as unsigned. -/
theorem loadwLoadsTheBlock : Obligations.LoadwLoadsTheBlock := by
  intro s
  refine ⟨(s.dp.load s.h s.pb).w, rfl, fun t => ?_, fun t ge => s.dp.load_w_of_ge s.h s.pb ge⟩
  rw [Datapath.load_w_of_lt, blockWord, be32_toNat]

/-! ### `SCHED` (R158) -/

theorem wordAt_of_lt {w : Vector Word 80} {t : Nat} (lt : t < 80) : wordAt w t = w[t] := by
  simp [wordAt, lt]

theorem exec_sched_of_lt_16 {s : State} {t : BitVec 7} (lt : t.toNat < 16) : exec (.sched t) s = .next s := if_pos lt

theorem exec_sched_of_ge_16 {s : State} {t : BitVec 7} (ge : 16 ≤ t.toNat) (lt : t.toNat < 80) :
    exec (.sched t) s = .next { s with dp := s.dp.sched t.toNat } :=
  (if_neg (Nat.not_lt.2 ge)).trans (if_pos lt)

/-- Settles O35: the four words of the recurrence are words of the schedule before `T`. -/
theorem schedExtendsTheSchedule : Obligations.SchedExtendsTheSchedule := by
  intro s t
  refine ⟨exec_sched_of_lt_16, fun ge lt => ⟨(s.dp.sched t.toNat).w, exec_sched_of_ge_16 ge lt, ?written, ?kept⟩⟩
  case written =>
    rw [← wordAt_of_lt lt, ← wordAt_of_lt, ← wordAt_of_lt, ← wordAt_of_lt, ← wordAt_of_lt]
    exact wordAt_set_same lt
  case kept =>
    exact fun u ne => Vector.getElem_setIfInBounds_ne u.isLt ne.symm

/-! ### `ROUND1` to `ROUND4` (R159 to R162) -/

/-- The step of `T = 79`, and no other, hands over to `ADDBACK` (R162). -/
theorem exec_round4_of_lt {s : State} {t : BitVec 7} (lt : t.toNat < 80) : exec (.round4 t) s =
    .next { s with dp := s.dp.round parity k3 t, phase := if t.toNat = 79 then .addback else s.phase } := by
  show execRound4 t s = _
  rw [execRound4, roundStep_of_lt lt, andThen_next]
  split <;> rfl

/-- Settles O36: each arm is the round transform with its function and constant. -/
theorem roundsApplyTheTransform : Obligations.RoundsApplyTheTransform := by
  intro s t lt a b c d e wt after
  have word : wordAt s.dp.w t.toNat = wt := wordAt_of_lt lt
  have round (f : Word → Word → Word → Word) (k : Word) :
      s.dp.round f k t = after (rotl 5 a + f b c d + e + k + wt) := by rw [Datapath.round, word]; rfl
  have step (f : Word → Word → Word → Word) (k : Word) :
      roundStep f k t s = .next { s with dp := after (rotl 5 a + f b c d + e + k + wt) } := by
    rw [roundStep_of_lt lt, round]
  refine ⟨fun _ => step ch k0, fun _ _ => step parity k1, fun _ _ => step maj k2, fun _ => ?_⟩
  rw [exec_round4_of_lt lt, round]
  rfl

/-! ### `ADDBACK` (R163) -/

theorem addWords_getElem (h v : Vector Word 5) (i : Fin 5) : (addWords h v)[i] = h[i] + v[i] := by
  fin_cases i <;> rfl

/-- Settles O37: each sum is its own word's, so no carry leaves it. -/
theorem addbackAddsTheWorkingRegisters : Obligations.AddbackAddsTheWorkingRegisters := by
  intro s
  refine ⟨addWords s.h s.dp.v, rfl, fun i => ?_⟩
  rw [addWords_getElem, BitVec.toNat_add]

/-! ### `COMPRESS` (R164) -/

/-- `COMPRESS` writes `H` and the datapath only. -/
theorem State.compress_eq (s : State) : s.compress = { s with h := s.compress.h, dp := s.compress.dp } := by
  rw [State.compress_h, State.compress_dp, State.compress, State.addBack]

/-- Settles O38: the hash words follow from the turns of the loop, which keep `Datapath.AtRound`. -/
theorem compressIsAPureFunctionOfHashAndBlock : Obligations.CompressIsAPureFunctionOfHashAndBlock := by
  refine fun s => ⟨s.compress_dp_t, ?_⟩
  rw [← s.compress_h_eq_compressFn]
  exact s.compress_eq

end Sys2Proof.Machine

/-! ## Buffering, padding and the start of a command (spec/42_buffering_padding.md R181 to R187) -/

namespace Sys2Proof.Machine

/-! ### One byte in its cell (R181, R187) -/

section
variable (s : State) (b : Byte)

theorem State.putCell_pb_same {i : Nat} {lt : i < 64} (here : s.pl.val = i) : (s.putCell b).pb[i] = b := by
  subst here
  exact Vector.getElem_set_self lt

theorem State.putCell_pb_other {i : Fin 64} (ne : i ≠ s.pl) : (s.putCell b).pb[i] = s.pb[i] :=
  Vector.getElem_set_ne s.pl.isLt i.isLt fun eq => ne (Fin.ext eq.symm)

/-- `PL` after a byte put in one step of the sequencer: a full block keeps it at 63 until `ADDBACK` (R187). -/
def plInStep (pl : Fin 64) : Fin 64 := if pl = 63 then pl else pl + 1

theorem plInStep_val (pl : Fin 64) : (plInStep pl).val = if pl = 63 then 63 else pl.val + 1 := by
  by_cases full : pl = 63
  · rw [plInStep, if_pos full, if_pos full, full]
    rfl
  · rw [plInStep, if_neg full, if_neg full, val_add_one_of_ne full]

/-- R187, the rows `FEED` and `PAD`, for a block that fills and one that does not. -/
theorem State.putInStep_eq_ite (r : Resume) : s.putInStep b r =
    { s with
      pb := (s.putCell b).pb, pl := plInStep s.pl, phase := if s.pl = 63 then .loadw else s.phase,
      scratch := { s.scratch with resume := if s.pl = 63 then r else s.scratch.resume } } := by
  by_cases full : s.pl = 63
  · rw [State.putInStep, plInStep, if_pos full, if_pos full, if_pos full, if_pos full]
    rfl
  · rw [State.putInStep, plInStep, if_neg full, if_neg full, if_neg full, if_neg full]
    rfl

end

/-! ### `PUTBYTE` (R181) -/

section
variable (s : State) (b : Byte)

/-- R181: the whole of `PUTBYTE` for the byte that fills the block, with the compressed block named. -/
theorem exec_putbyte_of_eq (full : s.pl = 63) : exec (.putbyte b) s =
    .next { s with
      pb := (s.putCell b).pb, pl := 0, h := compressFn s.h (s.putCell b).pb, dp := (s.putCell b).compress.dp } := by
  show Host.Outcome.next (s.putByte b) = _
  have hash : (s.putCell b).compress.h = compressFn s.h (s.putCell b).pb := (s.putCell b).compress_h_eq_compressFn
  have frame := (s.putCell b).compress_eq
  rw [State.putByte_of_eq full, ← hash]
  generalize (s.putCell b).compress = u at frame ⊢
  rw [frame]
  rfl

theorem exec_putbyte_of_ne (ne : s.pl ≠ 63) : exec (.putbyte b) s =
    .next { s with pb := (s.putCell b).pb, pl := s.pl + 1 } :=
  congrArg Host.Outcome.next (State.putByte_of_ne ne)

end

/-- Settles O40: the byte goes into its cell, and one that fills the block has it compressed. -/
theorem putbyteFillsACellOrCompresses : Obligations.PutbyteFillsACellOrCompresses := by
  refine fun s b => ⟨fun ne => ?open_block, fun full => ?full_block⟩
  case open_block =>
    exact ⟨(s.putCell b).pb, s.pl + 1, exec_putbyte_of_ne s b ne, val_add_one_of_ne ne, s.putCell_pb_same b rfl,
      fun _ => s.putCell_pb_other b⟩
  case full_block =>
    exact ⟨(s.putCell b).pb, (s.putCell b).compress.dp, exec_putbyte_of_eq s b full, (s.putCell b).compress_dp_t,
      s.putCell_pb_same b (congrArg Fin.val full), fun i ne => s.putCell_pb_other b (full ▸ ne)⟩

/-! ### `ABSORB` (R182) -/

theorem exec_absorb_of_input {s : State} {b : Byte} (input : s.nextInput = some b) :
    exec .absorb s = .next ({ s with
      tb := s.tb + 8#64, scratch := { s.scratch with i := s.scratch.i + 1#31 } }.putInStep b .feed) := by
  show execAbsorb s = _
  rw [execAbsorb, input]

/-- R61, R62: the next input byte of an admitted `UPDATE` stands at `BUFBASE + off + i`. -/
theorem nextInput_at_address {s : State} (present : pField s.scratch.cmd = true) (feeds : s.scratch.opr.feeds)
    (remains : (s.scratch.i.toNat : Int) < s.scratch.opr.len) : s.nextInput =
      some (s.mem.read (s.scratch.opr.bufbase.toNat + s.scratch.opr.off.toNat + s.scratch.i.toNat)) := by
  have ⟨off, _, bound, fits⟩ := feeds
  rw [nextInput_of_feeds present feeds remains, memRead_eq fits (by omega), Nat.add_assoc]

/-- The index of an input byte that remains does not wrap: `LENGTH` is below 2^31 (R95). -/
theorem inputIndex_succ {o : Operands} {i : BitVec 31} (remains : (i.toNat : Int) < o.len) :
    (i + 1#31).toNat = i.toNat + 1 := by
  have bounds := o.bounds
  rw [BitVec.toNat_add, show (1#31).toNat = 1 from rfl]
  omega

/-- Settles O41: there is an input byte, and the step puts it. -/
theorem absorbTakesTheNextInputByte : Obligations.AbsorbTakesTheNextInputByte := by
  intro s present feeds remains b
  have run := exec_absorb_of_input (nextInput_at_address present feeds remains)
  rw [State.putInStep_eq_ite] at run
  exact ⟨_, run, rfl, s.putCell_pb_same b rfl, fun _ => s.putCell_pb_other b, inputIndex_succ remains, rfl,
    plInStep_val s.pl⟩

/-- R23: `PL` counts the message bytes modulo 64. -/
theorem State.absorbAll_pl_val (s : State) (bs : List Byte) :
    (s.absorbAll bs).pl.val = (s.pl.val + bs.length) % 64 := by
  rw [(s.stands_pending.absorbAll bs).pl_eq, List.length_append, s.pending_length]

/-- Settles O46: `TB` is a 64-bit sum, and `PL` the length of what is pending. -/
theorem absorbingCountsBitsAndBytes : Obligations.AbsorbingCountsBitsAndBytes := by
  refine fun s bs => ⟨?_, s.absorbAll_pl_val bs⟩
  rw [State.absorbAll_tb, BitVec.toNat_add, BitVec.toNat_ofNat, Nat.add_mod_mod]

/-! ### `PAD` (R183, R184) -/

theorem exec_pad_of_next {s : State} {b : Byte} {p : PadStep} (next : s.scratch.pad.next s.pl s.tb = some (b, p)) :
    exec .pad s = .next ({ s with scratch := { s.scratch with pad := p } }.putInStep b .pad) := by
  show execPad s = _
  rw [execPad, next]

/-- Settles O43: by the standing of the padding counter, which byte is next; the step puts it. -/
theorem padPutsTheNextPaddingByte : Obligations.PadPutsTheNextPaddingByte := by
  intro s notDone b next
  have counter : s.scratch.pad.next s.pl s.tb = some (b, next) := by
    subst b next
    cases pad : s.scratch.pad with
    | start | length k => rfl
    | zeros => by_cases at56 : s.pl = 56 <;> simp [PadStep.next, at56, lengthByte]
    | done => exact absurd pad notDone
  have run := exec_pad_of_next counter
  rw [State.putInStep_eq_ite] at run
  exact ⟨_, _, run, s.putCell_pb_same b rfl, fun _ => s.putCell_pb_other b, plInStep_val s.pl⟩

theorem State.putAll_pl_val (s : State) (bs : List Byte) :
    (s.putAll bs).pl.val = (s.pl.val + bs.length) % 64 := by
  rw [(s.stands_pending.putAll bs).pl_eq, List.length_append, s.pending_length]

/-- R184: the padding ends a block. -/
theorem State.padAll_pl (s : State) : s.padAll.pl = 0 := by
  have lt := s.pl.isLt
  refine Fin.ext ?_
  rw [State.padAll_eq_putAll, State.putAll_pl_val, padBytes_length, Fin.val_zero]
  omega

/-- Settles O47: the loop puts the bytes of the closed form, which fill their last block. -/
theorem padIsItsClosedForm : Obligations.PadIsItsClosedForm := by
  refine fun s => ⟨s.padAll_eq_putAll, s.padAll_pl, ?_⟩
  rw [State.padAll_eq_putAll, State.putAll_tb]

/-! ### The accepted and the refused `CMD` write (R187, R61) -/

/-- R61: the words whose launch the operand registers can break, and when they do. -/
theorem State.launchBroken_iff {s : State} {w : Word} : s.launchBroken w = true ↔
    (decodeCmd w = .update true ∨ decodeCmd w = .finishto true) ∧
      2 ^ 32 < s.opr.bufbase.toNat + s.opr.bufsize.toNat := by
  have premise : (!s.opr.launches true) = true ↔ 2 ^ 32 < s.opr.bufbase.toNat + s.opr.bufsize.toNat := by
    rw [Bool.not_eq_true', Bool.eq_false_iff, ne_eq, Operands.launches_iff, forall_prop_of_true rfl, Nat.not_le]
  unfold State.launchBroken
  cases decodeCmd w with
  | update p | finishto p =>
    cases p with
    | true => simpa using premise
    | false => simp [s.opr.launches_absent]
  | _ => simp

/-- U8: a `CMD` write that would launch a command under a broken premise. -/
theorem step_of_cmd_write_broken {s : State} {w : Word} {rest : List HostAction} (idle : s.busy = false)
    (broken : s.launchBroken w = true) (h : s.host = .write { off := 0, width := 4 } w :: rest) :
    step s = .refused .bufferWraps := by
  have broken' : State.launchBroken { s with host := rest } w = true := broken
  rw [step_of_write h, hostWrite, if_neg (by decide), if_neg (by simp [idle]), if_pos ⟨rfl, broken'⟩]

/-- Settles O7: the write is refused exactly where the word's launch is broken. -/
theorem cmdWriteSamplesAndEntersCheck : Obligations.CmdWriteSamplesAndEntersCheck := by
  refine fun s w rest idle host => ⟨fun broken => ?_, fun launched => ?_⟩
  · exact step_of_cmd_write_broken idle (State.launchBroken_iff.2 broken) host
  · have launch : s.launchBroken w = false := Bool.eq_false_iff.2 (mt State.launchBroken_iff.1 launched)
    exact step_of_cmd_write idle launch host

/-! ### `SERIALISE` and `REINIT` (R185, R186) -/

/-- Settles O44: the arm is the model's `serialise`. -/
theorem serialiseCopiesHashToDout : Obligations.SerialiseCopiesHashToDout := fun _ => rfl

/-- Settles O45: the arm is the model's `reinit`, whose words `ivWords` are the five constants. -/
theorem reinitWritesTheConstants : Obligations.ReinitWritesTheConstants := fun _ => rfl

end Sys2Proof.Machine

/-! ## Errors, and the idle core (spec/60_exceptions.md R201 to R206, R223) -/

namespace Sys2Proof.Machine

/-! ### The idle core (R223) -/

/-- R245: with nothing on the host's list the step of an idle core changes nothing. -/
theorem step_of_idle {s : State} (idle : s.phase = .idle) (host : s.host = []) : step s = .next s := by
  rw [step_of_host_nil host, coreStep_of_idle idle]

/-- Settles O8, by induction on the number of steps. -/
theorem idleCoreKeepsAllState : Obligations.IdleCoreKeepsAllState := by
  intro s n idle host
  induction n with
  | zero => rfl
  | succ n ih => exact (run_succ_of_step (M := Sys2Proof.core) (step_of_idle idle host) n).trans ih

/-! ### A failed check ends the command (R204) -/

section
variable {p : Bool} {s : State} {e : ErrCode}

theorem exec_update_of_raise (raises : updateCheck p s.opr = .raise e) : exec (.update p) s = .next (s.raise e) := by
  show execUpdate p s = _
  simp only [execUpdate, raises]

theorem exec_finishto_of_raise (raises : finishtoCheck p s.opr = .raise e) :
    exec (.finishto p) s = .next (s.raise e) := by
  show execFinishto p s = _
  simp only [execFinishto, raises]

/-- R204: `raise` is an end of the command as claims speak of it. -/
theorem exists_ended_of_raise {r : Result} (raises : r = .next (s.raise e)) : ∃ c, r = .next (s.ended e c) :=
  ⟨_, raises.trans (congrArg Host.Outcome.next (s.complete_eq_ended e))⟩

end

/-! ### Which check fails (R201, R202, R205, R206) -/

section
variable {p : Bool} {o : Operands}

/-- R205, R206: a negative operand is reported before an absent buffer. -/
theorem updateCheck_of_negative (launch : o.launches p = true) (negative : o.off < 0 ∨ o.len < 0) :
    updateCheck p o = .raise .invalidArgument := by
  rw [updateCheck, if_neg (by simp [launch]), if_pos negative]
  exact congrArg Verdict.raise (ite_self _)

theorem updateCheck_of_absent (off : 0 ≤ o.off) (len : 0 < o.len) : updateCheck false o = .raise .nullInput := by
  rw [updateCheck, if_neg (by simp [o.launches_absent]), if_neg (by omega), if_pos rfl, if_pos len]

theorem updateCheck_of_past_end (launch : o.launches true = true) (off : 0 ≤ o.off) (len : 0 ≤ o.len)
    (past : o.size < o.off + o.len) : updateCheck true o = .raise .invalidArgument := by
  rw [updateCheck, if_neg (by simp [launch]), if_neg (by omega), if_neg (by decide), if_pos past]

theorem finishtoCheck_of_negative (launch : o.launches p = true) (negative : o.off < 0) :
    finishtoCheck p o = .raise .invalidArgument := by
  rw [finishtoCheck, if_neg (by simp [launch]), if_pos negative]

theorem finishtoCheck_of_absent (off : 0 ≤ o.off) : finishtoCheck false o = .raise .nullInput := by
  rw [finishtoCheck, if_neg (by simp [o.launches_absent]), if_neg (Int.not_lt.2 off), if_pos rfl]

theorem finishtoCheck_of_past_end (launch : o.launches true = true) (off : 0 ≤ o.off)
    (past : o.size < o.off + 20) : finishtoCheck true o = .raise .invalidArgument := by
  rw [finishtoCheck, if_neg (by simp [launch]), if_neg (Int.not_lt.2 off), if_neg (by decide)]
  exact if_pos past

end

/-- Settles O20: for each of the operands one check fails, and a failed check is all of the command. -/
theorem argumentErrorsAreReportedInOrder : Obligations.ArgumentErrorsAreReportedInOrder := by
  intro s p off len size launch
  have launches {q : Bool} (premise : q = true → launch) : s.opr.launches q = true := Operands.launches_iff.2 premise
  have update {q : Bool} {e : ErrCode} (raises : updateCheck q s.opr = .raise e) :
      ∃ c, exec (.update q) s = .next (s.ended e c) := exists_ended_of_raise (exec_update_of_raise raises)
  have finishto {q : Bool} {e : ErrCode} (raises : finishtoCheck q s.opr = .raise e) :
      ∃ c, exec (.finishto q) s = .next (s.ended e c) := exists_ended_of_raise (exec_finishto_of_raise raises)
  refine ⟨fun premise negative => ?_, fun off_nonneg len_pos => ?_, fun fits off_nonneg len_nonneg past => ?_,
    fun premise negative => ?_, fun off_nonneg => ?_, fun fits off_nonneg past => ?_⟩
  · exact update (updateCheck_of_negative (launches premise) negative)
  · exact update (updateCheck_of_absent off_nonneg len_pos)
  · exact update (updateCheck_of_past_end (launches fun _ => fits) off_nonneg len_nonneg past)
  · exact finishto (finishtoCheck_of_negative (launches premise) negative)
  · exact finishto (finishtoCheck_of_absent off_nonneg)
  · exact finishto (finishtoCheck_of_past_end (launches fun _ => fits) off_nonneg past)

/-! ### A command succeeds or changes nothing (R131, R204) -/

/-- R131, R204: if `r` answers a next state, the command succeeded (`ERR = OK`) or wrote nothing but its end. -/
def SucceedsOrEnds (s : State) (r : Result) : Prop :=
  ∀ t, r = .next t → t.err = .ok ∨ ∃ c, t = s.ended t.err c

section
variable {s u : State} {r : Result}

theorem SucceedsOrEnds.complete_ok (h : r = .next (u.complete .ok)) : SucceedsOrEnds s r :=
  fun _ run => .inl (Host.Outcome.next.inj (h.symm.trans run) ▸ u.complete_err .ok)

theorem SucceedsOrEnds.raise {e : ErrCode} (h : r = .next (s.raise e)) : SucceedsOrEnds s r := by
  rintro _ run
  obtain rfl := Host.Outcome.next.inj (h.symm.trans run)
  exact .inr ⟨_, s.complete_eq_ended e⟩

theorem SucceedsOrEnds.refused {f : Refusal} (h : r = .refused f) : SucceedsOrEnds s r :=
  fun _ run => nomatch h.symm.trans run

end

theorem exec_update_succeedsOrEnds (p : Bool) (s : State) : SucceedsOrEnds s (exec (.update p) s) := by
  cases verdict : updateCheck p s.opr with
  | raise e => exact .raise (exec_update_of_raise verdict)
  | nothing => exact .complete_ok (exec_update_of_nothing verdict)
  | run => exact .complete_ok (exec_update_of_run verdict)
  | wraps => exact .refused (exec_update_of_not_launches (updateCheck_eq_wraps.1 verdict))

theorem exec_finishto_succeedsOrEnds (p : Bool) (s : State) : SucceedsOrEnds s (exec (.finishto p) s) := by
  cases verdict : finishtoCheck p s.opr with
  | raise e => exact .raise (exec_finishto_of_raise verdict)
  | nothing => exact absurd verdict finishtoCheck_ne_nothing
  | run => exact .complete_ok (execFinishto_of_run verdict)
  | wraps => exact .refused (exec_finishto_of_not_launches (finishtoCheck_eq_wraps.1 verdict))

theorem exec_command_succeedsOrEnds {i : Instr} (cmd : isCommand i = true) (s : State) :
    SucceedsOrEnds s (exec i s) := by
  cases i with
  | getdlen | getblen | reset => exact .complete_ok rfl
  | update p => exact exec_update_succeedsOrEnds p s
  | finish => exact .complete_ok (exec_finish s)
  | finishto p => exact exec_finishto_succeedsOrEnds p s
  | illegal w => exact .raise rfl
  | _ => cases cmd

/-- Settles O28: a command that did not succeed wrote its end only. -/
theorem failedCommandsAreInvisible : Obligations.FailedCommandsAreInvisible :=
  fun s t _ cmd run failed => (exec_command_succeedsOrEnds cmd s t run).resolve_left failed

end Sys2Proof.Machine

/-! ## Hazards and the reset event (spec/70_reset_and_hazards.md R230, R240, R241) -/

namespace Sys2Proof.Machine

/-! ### Accesses of a busy core (R240) -/

section
variable {s : State} {a : RegAccess} {v : Word}

theorem hostIssue_of_busy (busy : s.busy = true) : hostIssue v s = .refused .accessWhileBusy := if_pos busy

theorem hostWrite_of_busy (valid : a.valid = true) (busy : s.busy = true) :
    hostWrite a v s = .refused .accessWhileBusy := by
  rw [hostWrite, if_neg (by simp [valid]), if_pos busy]

theorem hostRead_of_busy (valid : a.valid = true) (busy : s.busy = true) (ne : a.off ≠ offStatus) :
    hostRead a s = .refused .accessWhileBusy := by
  rw [hostRead, if_neg (by simp [valid]), if_pos ⟨busy, ne⟩]

end

/-- R38, R240: `STATUS` is read in every state. -/
theorem hostRead_status (s : State) : hostRead { off := offStatus, width := 4 } s =
    .next { s with rdata := statusWord s.busy s.fin s.err } := by
  rw [hostRead, if_neg (by decide), if_neg fun h => h.2 rfl]
  rfl

/-- Settles O13: a busy core refuses every access but the read of `STATUS`. -/
theorem busyCoreAdmitsOnlyStatusReads : Obligations.BusyCoreAdmitsOnlyStatusReads := by
  intro s off v rest busy aligned inside
  have valid : RegAccess.valid { off := off, width := 4 } = true := RegAccess.valid_iff.2 ⟨rfl, aligned, inside⟩
  have busy' : State.busy { s with host := rest } = true := busy
  refine ⟨fun host => ?issue, fun host => ?write, fun host ne => ?read, fun host status => ?status⟩
  case issue =>
    rw [step, host]
    exact hostIssue_of_busy busy'
  case write => rw [step_of_write host, hostWrite_of_busy valid busy']
  case read => rw [step_of_read host, hostRead_of_busy valid busy' ne]
  case status =>
    subst status
    rw [← busy, step_of_read host]
    exact hostRead_status _

/-! ### Accesses to the bytes of the running command (R241) -/

theorem inBufferRange_iff {o : Operands} {n : Int} {a : Nat} : inBufferRange o n a = true ↔
    o.bufbase.toNat + o.off ≤ (a : Int) ∧ (a : Int) < o.bufbase.toNat + o.off + n := decide_eq_true_iff

/-- R241: only a running `FINISHTO` with a present buffer forbids a read. -/
theorem State.readForbidden_iff {s : State} {a : Nat} : s.readForbidden a = true ↔
    (s.busy = true ∧ decodeCmd s.scratch.cmd = .finishto true) ∧ inBufferRange s.scratch.opr 20 a = true := by
  unfold State.readForbidden
  cases decodeCmd s.scratch.cmd with
  | finishto p => cases p <;> simp [Config.digestLen]
  | _ => simp

/-- R241: a running `UPDATE` with a present buffer forbids a write of its input, and what may not be read may not be
written. -/
theorem State.writeForbidden_iff {s : State} {a : Nat} : s.writeForbidden a = true ↔
    (s.busy = true ∧ decodeCmd s.scratch.cmd = .update true) ∧
        inBufferRange s.scratch.opr s.scratch.opr.len a = true ∨
      s.readForbidden a = true := by
  unfold State.writeForbidden State.readForbidden
  cases decodeCmd s.scratch.cmd with
  | update p | finishto p => cases p <;> simp
  | _ => simp

section
variable {s : State} {a : Word} {b : Byte} {rest : List HostAction}

theorem step_of_load (h : s.host = .load a :: rest) : step s =
    if s.readForbidden a.toNat then .refused .bufferTouchedDuringCommand
    else .next { s with host := rest, rbyte := s.mem.read a.toNat } := by
  rw [step, h]
  rfl

theorem step_of_store (h : s.host = .store a b :: rest) : step s =
    if s.writeForbidden a.toNat then .refused .bufferTouchedDuringCommand
    else .next { s with host := rest, mem := s.mem.write a.toNat b } := by
  rw [step, h]
  rfl

end

/-- Settles O14: the model's two tests say which bytes the running command holds. -/
theorem buffersAreStableDuringACommand : Obligations.BuffersAreStableDuringACommand := by
  intro s a b rest start inInput inOutput update finishto
  have read : s.readForbidden a.toNat = true ↔ finishto ∧ inOutput :=
    State.readForbidden_iff.trans (and_congr_right' inBufferRange_iff)
  have write : s.writeForbidden a.toNat = true ↔ update ∧ inInput ∨ finishto ∧ inOutput :=
    State.writeForbidden_iff.trans (or_congr (and_congr_right' inBufferRange_iff) read)
  refine ⟨fun host => ?store, fun host => ?load⟩
  case store =>
    rw [step_of_store host, ← write]
    exact ⟨fun held => if_pos held, fun free => if_neg free⟩
  case load =>
    rw [step_of_load host, ← read]
    exact ⟨fun held => if_pos held, fun free => if_neg free⟩

/-! ### The reset event (R230) -/

/-- R230, U12: the event makes the 20 stores of a running `FINISHTO` whose checks pass, with free bytes, or leaves
memory as it is. -/
theorem State.memAfterReset_cases (s : State) :
    (s.busy = true ∧ decodeCmd s.scratch.cmd = .finishto true ∧ s.scratch.opr.receives) ∧
        s.memAfterReset = storeRange s.scratch.opr (Config.freeByte s.draws) s.mem ∨
      s.memAfterReset = s.mem := by
  unfold State.memAfterReset
  generalize storeRange s.scratch.opr (Config.freeByte s.draws) s.mem = m
  split
  next p cmd =>
    split_ifs with struck
    · obtain ⟨busy, run⟩ := struck
      obtain ⟨rfl, receives⟩ := finishtoCheck_eq_run.1 run
      exact .inl ⟨⟨busy, cmd, receives⟩, rfl⟩
    · exact .inr rfl
  next => exact .inr rfl

theorem step_of_hardReset {s : State} {rest : List HostAction} (h : s.host = .hardReset :: rest) :
    step s = .next (State.hardReset { s with host := rest }) := by
  rw [step, h]

theorem State.memAfterReset_of_not_storing {s : State}
    (quiet : ¬ (s.busy = true ∧ decodeCmd s.scratch.cmd = .finishto true ∧ s.scratch.opr.receives)) :
    s.memAfterReset = s.mem :=
  s.memAfterReset_cases.resolve_left fun storing => quiet storing.1

theorem State.read_memAfterReset_other {s : State} {a : Nat}
    (ne : ∀ j < 20, a ≠ s.scratch.opr.addr (s.scratch.opr.off.toNat + j)) :
    s.memAfterReset.read a = s.mem.read a := by
  rcases s.memAfterReset_cases with ⟨-, stored⟩ | kept
  · rw [stored, read_storeRange_other ne]
  · rw [kept]

/-- Settles O15: the step is the model's reset event, whose fields are the reset column. -/
theorem hardwareResetGivesTheResetColumn : Obligations.HardwareResetGivesTheResetColumn := by
  intro s rest wf host
  refine ⟨_, step_of_hardReset host, rfl, rfl, rfl, rfl, rfl, rfl, rfl, rfl, rfl, rfl, rfl, wf_memAfterReset wf,
    fun quiet => ?quiet, fun a outside => ?outside⟩
  case quiet => exact State.memAfterReset_of_not_storing (s := { s with host := rest }) quiet
  case outside => exact State.read_memAfterReset_other (s := { s with host := rest }) outside

end Sys2Proof.Machine
